-- ==== Sys2Proof/Word.lean ====
section
/-! DEFINITION. The word types of the block: registers and command words are 32 bits (R33, R90), codewords and host bytes
8 bits (R56, R72). -/

namespace Sys2Proof

/-- A 32-bit register value, command word or bitmap row (R33, R52, R90); bit 0 is the least significant (R14). -/
abbrev Word := BitVec 32

/-- A codeword (R19, R56), a byte of the host byte space (R72) or an element of GF(256) (R140). -/
abbrev Byte := BitVec 8

end Sys2Proof
end

