-- ==== Sys2Proof/Syntax.lean ====
section
/-! DEFINITION. The commands of the block, one constructor per mnemonic of spec/opcode_table.json (R96). -/

namespace Sys2Proof

/-- A command word as the block reads it (R96, R98). Operands are the unsigned fields of the word, taken as they are (R95);
every value of a field is a legal operand as far as decoding goes (R100). -/
inductive Instr where
  /-- NOP, OP 0x0 (R272). -/
  | nop
  /-- EVALUATE VER, LEN, OP 0x1, format E (R92, R115). -/
  | evaluate (ver : BitVec 4) (len : BitVec 16)
  /-- ENCODE, OP 0x2 (R250). -/
  | encode
  /-- GET_MODULE X, Y, OP 0x3, format XY (R94, R270). -/
  | getModule (x y : BitVec 5)
  /-- ASSEMBLE, OP 0x4 (R125). -/
  | assemble
  /-- RS_ENCODE, OP 0x5 (R155). -/
  | rsEncode
  /-- PLACE M, OP 0x6, format M (R93, R205). -/
  | place (m : BitVec 3)
  /-- SCORE, OP 0x7 (R240). -/
  | score
  /-- SELECT, OP 0x8 (R245). -/
  | select
  /-- FORMAT_WORD M, OP 0x9, format M (R93, R206). -/
  | formatWord (m : BitVec 3)
  /-- ILLEGAL: the word `w`, which is no command (R98, R99, R278). -/
  | illegal (w : Word)
  deriving DecidableEq, Repr

end Sys2Proof
end

