-- ==== Sys2Proof/WellFormed.lean ====
section
/-! DEFINITION. Which terms of `Instr` stand for a word of the command encoding. The operand fields have exactly their widths in
their types (R95), so the only check is that an ILLEGAL word is not a command word. -/

namespace Sys2Proof

/-- The word is a command word: its OP is 0x0 to 0x9 and every bit its format fixes at 0 is 0. Written from the prose of the
formats (R91 to R94, R99), not from the masks of R96 that the decoder uses. -/
def legalWord (w : Word) : Bool :=
  match (w.extractLsb' 0 4).toNat with
  -- format N: w[31:4] = 0 (R91)
  | 0 | 2 | 4 | 5 | 7 | 8 => w.extractLsb' 4 28 == 0#28
  -- format E: w[7:4] = 0 and w[15:12] = 0 (R92)
  | 1 => w.extractLsb' 4 4 == 0#4 && w.extractLsb' 12 4 == 0#4
  -- format XY: w[7:4] = 0, w[15:13] = 0 and w[31:21] = 0 (R94)
  | 3 => w.extractLsb' 4 4 == 0#4 && w.extractLsb' 13 3 == 0#3 && w.extractLsb' 21 11 == 0#11
  -- format M: w[7:4] = 0 and w[31:11] = 0 (R93)
  | 6 | 9 => w.extractLsb' 4 4 == 0#4 && w.extractLsb' 11 21 == 0#21
  -- reserved OP 0xA to 0xF (R99)
  | _ => false

/-- An instruction is well formed when it is what some word means: an ILLEGAL term must hold a word that is no command (R98). -/
def Instr.wellFormed : Instr → Bool
  | .illegal w => !legalWord w
  | .nop | .evaluate _ _ | .encode | .getModule _ _ | .assemble | .rsEncode | .place _ | .score | .select
  | .formatWord _ => true

/-- `Instr.wellFormed` as a proposition. -/
abbrev WellFormed (i : Instr) : Prop := i.wellFormed = true

end Sys2Proof
end

