-- ==== Sys2Proof/Decode.lean ====
section
/-! DEFINITION. The command decoder of R98, total on every 32-bit word, over the opcode map of R96, and the encoder, written from
the formats R91 to R94. -/

namespace Sys2Proof

/-- The operand fields of a command word (R95). -/
def fieldVer (w : Word) : BitVec 4 := w.extractLsb' 8 4
/-- `LEN = w[31:16]` (R92, R95). -/
def fieldLen (w : Word) : BitVec 16 := w.extractLsb' 16 16
/-- `M = w[10:8]` (R93, R95). -/
def fieldM (w : Word) : BitVec 3 := w.extractLsb' 8 3
/-- `X = w[12:8]` (R94, R95). -/
def fieldX (w : Word) : BitVec 5 := w.extractLsb' 8 5
/-- `Y = w[20:16]` (R94, R95). -/
def fieldY (w : Word) : BitVec 5 := w.extractLsb' 16 5

/-- A row of the opcode map: a word is this command when its fixed bits, those of `mask`, equal `value` (R96). -/
structure OpRow where
  mask  : Word
  value : Word
  build : Word → Instr

/-- The word is one of this row's words (R98). -/
def OpRow.accepts (r : OpRow) (w : Word) : Bool := w &&& r.mask == r.value

/-- The opcode map (R96), OP 0x0 to 0x9 in order. -/
def opTable : List OpRow :=
  [ ⟨0xFFFFFFFF#32, 0x00000000#32, fun _ => .nop⟩,
    ⟨0x0000F0FF#32, 0x00000001#32, fun w => .evaluate (fieldVer w) (fieldLen w)⟩,
    ⟨0xFFFFFFFF#32, 0x00000002#32, fun _ => .encode⟩,
    ⟨0xFFE0E0FF#32, 0x00000003#32, fun w => .getModule (fieldX w) (fieldY w)⟩,
    ⟨0xFFFFFFFF#32, 0x00000004#32, fun _ => .assemble⟩,
    ⟨0xFFFFFFFF#32, 0x00000005#32, fun _ => .rsEncode⟩,
    ⟨0xFFFFF8FF#32, 0x00000006#32, fun w => .place (fieldM w)⟩,
    ⟨0xFFFFFFFF#32, 0x00000007#32, fun _ => .score⟩,
    ⟨0xFFFFFFFF#32, 0x00000008#32, fun _ => .select⟩,
    ⟨0xFFFFF8FF#32, 0x00000009#32, fun w => .formatWord (fieldM w)⟩ ]

/-- Decoding a command word: the row that accepts it, or ILLEGAL (R98). -/
def decode (w : Word) : Instr :=
  match opTable.find? (fun r => r.accepts w) with
  | some r => r.build w
  | none => .illegal w

/-- The opcode field OP of a command (R90, R96); of an ILLEGAL word, the OP it holds. -/
def Instr.op : Instr → BitVec 4
  | .nop => 0x0#4
  | .evaluate _ _ => 0x1#4
  | .encode => 0x2#4
  | .getModule _ _ => 0x3#4
  | .assemble => 0x4#4
  | .rsEncode => 0x5#4
  | .place _ => 0x6#4
  | .score => 0x7#4
  | .select => 0x8#4
  | .formatWord _ => 0x9#4
  | .illegal w => w.extractLsb' 0 4

/-- Format N (R91). -/
def formatN (op : BitVec 4) : Word := 0#28 ++ op
/-- Format E (R92). -/
def formatE (len : BitVec 16) (ver op : BitVec 4) : Word := len ++ 0#4 ++ ver ++ 0#4 ++ op
/-- Format M (R93). -/
def formatM (m : BitVec 3) (op : BitVec 4) : Word := 0#21 ++ m ++ 0#4 ++ op
/-- Format XY (R94). -/
def formatXY (y x : BitVec 5) (op : BitVec 4) : Word := 0#11 ++ y ++ 0#3 ++ x ++ 0#4 ++ op

/-- The word of an instruction (R91 to R94, R102). -/
def encode : Instr → Word
  | .nop => formatN 0x0#4
  | .evaluate ver len => formatE len ver 0x1#4
  | .encode => formatN 0x2#4
  | .getModule x y => formatXY y x 0x3#4
  | .assemble => formatN 0x4#4
  | .rsEncode => formatN 0x5#4
  | .place m => formatM m 0x6#4
  | .score => formatN 0x7#4
  | .select => formatN 0x8#4
  | .formatWord m => formatM m 0x9#4
  | .illegal w => w

/-- The word whose bits, numbered as spec/opcode_table.json numbers them, are the low `nbits` bits of `w`; every bit above is 0.
A command is one 32-bit word, so the table's numbering is the word's own (R14, R90). -/
def tableWord (nbits w : Nat) : Word := BitVec.ofNat 32 (w % 2 ^ nbits)

/-- The instruction the decoder reads from a word given in the table's numbering; no word is longer than 32 bits (R90). -/
def decodeTableWord (nbits w : Nat) : Option Instr :=
  if nbits ≤ 32 then some (decode (tableWord nbits w)) else none

end Sys2Proof
end

