-- ==== Sys2Proof/Config.lean ====
section
/-! DEFINITION. What an implementation fixes (ADDR_W, TIER, QRC_BASE) and the free values of the spec: constants with no body,
so that nothing can be proved of them. -/

namespace Sys2Proof

/-- ADDR_W, the host address width: a named parameter that this hardware takes to be 32 (R11, D6). -/
def Config.addrW : Nat := 32

/-- TIER, the construction-time parameter in {0, 1, 2} (R12), visible in CONFIG only (R51, D17). Open: no body. -/
opaque Config.tier : Fin 3

/-- QRC_BASE, where the platform puts the register space in the host's address map (R79, D2). Open, and no rule reads it: the
model names a register by its offset in the register space. -/
opaque Config.qrcBase : Nat

/-- Free value (log 2): what the unspecified bits of bitmap row `y` read as after free draw `draw` (R203, R63, U5, U6). -/
opaque Config.freeRow : (draw : Nat) → (y : Nat) → Word

/-- Free value (log 2): the low byte that a host read of an unwritten codeword entry returns at free draw `draw` (R276, U8). -/
opaque Config.freeByte : (draw : Nat) → Byte

end Sys2Proof
end

