-- ==== Sys2Proof/Machine/State.lean ====
section
/-! DEFINITION. The state of the block (spec/10_state.md), the host's side that drives it, the reasons a step can stop, and the
state after reset (R63). -/

namespace Sys2Proof.Machine

/-- The fields of STATUS (R36). Bits 31:5 are reserved and read 0, so they are not held. -/
structure Status where
  /-- VALID, bit 0: the context holds a successful evaluation. -/
  valid : Bool
  /-- DONE, bit 1: BM holds a complete symbol for CTX_SIZE. -/
  done : Bool
  /-- EVRES, bit 2: the result of the last EVALUATE. -/
  evres : Bool
  /-- MODULE, bit 3: the module value returned by the last GET_MODULE (1 = dark). -/
  moduleBit : Bool
  /-- ILL, bit 4: an illegal command word was written since it was last cleared. -/
  ill : Bool
  deriving DecidableEq, Repr

/-- The registers of the context (R55, less STATUS.VALID): CTX_ADDR, CTX_VERSION, CTX_SIZE, CTX_INLEN, LP_TOTAL, LP_DATA, LP_ECC
and LP_NBLK (R38 to R45). -/
structure Context where
  addr    : Word
  version : BitVec 2
  size    : BitVec 5
  inlen   : BitVec 6
  lpTotal : BitVec 7
  lpData  : BitVec 6
  lpEcc   : BitVec 4
  lpNblk  : BitVec 2
  deriving DecidableEq, Repr

/-- SCORE_TOTAL and SCORE_N1 to SCORE_N4 (R48, R49). -/
structure Score where
  total : BitVec 16
  n1    : BitVec 16
  n2    : BitVec 16
  n3    : BitVec 16
  n4    : BitVec 16
  deriving DecidableEq, Repr

/-- The bitmap storage BM[0..28] (R52, R57). Module (x, y) is bit 31 - x of row `y`. Which bits have a defined value is said by
STATUS.DONE and CTX_SIZE (R271, `State.symbolSide`); every other bit reads as the free value `Config.freeRow draw y`, whatever `rows`
holds there (log 2). -/
structure Bitmap where
  rows : Vector Word 29
  draw : Nat
  deriving DecidableEq, Repr

/-- What else happens while a command runs, in breach of the host's duties (R82, R308). -/
inductive Intrusion where
  /-- The host stores a byte into its memory. -/
  | store (addr : Word) (value : Byte)
  /-- A second agent writes a command word. -/
  | command (word : Word)
  deriving DecidableEq, Repr

/-- One thing the outside world does to the block: a line of a host program (R102), a store into host memory (R340), a reset
(R330), or a command with an intrusion (R308, log 6). -/
inductive HostEvent where
  /-- `WR off, v`: a register write of `size` bytes at byte offset `off` (R71). -/
  | regWrite (off size : Nat) (v : Word)
  /-- `RD off`: a register read of `size` bytes at byte offset `off` (R71). -/
  | regRead (off size : Nat)
  /-- The host stores a byte into its own memory, between commands (R340). -/
  | memStore (addr : Word) (value : Byte)
  /-- Reset (R330). -/
  | reset
  /-- The host writes `word` to CMD and `intrusion` happens while the command runs (R82, R301, R308). -/
  | contendedCommand (word : Word) (intrusion : Intrusion)
  deriving DecidableEq, Repr

/-- The host byte space (R70): the bytes the host memory admits, as (address, byte) pairs with strictly rising addresses. An
address that is not listed is not admitted: it reads as no value (R73, log 4). -/
abbrev Memory := List Host.Cell

/-- The state: the block's registers and storage (R34, R56, R57), then the host's side, then the model's draw counter. -/
structure State where
  /-- STATUS (R36). -/
  status : Status
  /-- DATA_ADDR (R37). -/
  dataAddr : Word
  /-- The context registers (R55). -/
  ctx : Context
  /-- MASK_SEL (R46). -/
  maskSel : BitVec 3
  /-- FMT (R47). -/
  fmt : BitVec 15
  /-- The SCORE registers (R48, R49). -/
  score : Score
  /-- PEN[0..7] (R50). -/
  pen : Vector (BitVec 16) 8
  /-- CONFIG, the TIER of this block (R51). -/
  config : BitVec 2
  /-- BM[0..28] (R52, R57). -/
  bitmap : Bitmap
  /-- CW[0..69]; `none` is the spec's own "unwritten" (R56). -/
  cw : Vector (Option Byte) 70
  /-- The host byte space (R70). -/
  hostMem : Memory
  /-- What the host does next, in order: the rest of the host's program (R102, log 5). -/
  pending : List HostEvent
  /-- The values the host's register reads returned, newest first (R71, log 5). -/
  readLog : List Word
  /-- The model's own counter of free draws (log 2). -/
  draws : Nat
  deriving DecidableEq, Repr

/-- The model faults (R301). Each is safe: the model stops where QR123 calls the behaviour undefined or where the register bus
is the spec's own. A faulted run takes no further step. -/
inductive Fault where
  /-- Code 1. Raised by ENCODE, ASSEMBLE, RS_ENCODE, PLACE and SELECT when STATUS.VALID = 0 (R302). Safe. -/
  | encodeUnevaluated (word : Word)
  /-- Code 2. Raised by RS_ENCODE, PLACE and SELECT when a codeword they read was never written; holds the least index (R303). Safe. -/
  | codewordUnwritten (word : Word) (index : Nat)
  /-- Code 3. Raised by GET_MODULE and SCORE when STATUS.DONE = 0 (R304). Safe. -/
  | bitmapNotReady (word : Word)
  /-- Code 4. Raised by GET_MODULE when X or Y is not below CTX_SIZE (R305). Safe. -/
  | moduleOutOfRange (x y size : Nat)
  /-- Code 5. Raised by a register access that is not an aligned 4-byte access of the register space (R306). Safe. -/
  | registerAccessFault (off size : Nat)
  /-- Code 6. Raised by the host: a store into the input buffer while ASSEMBLE or ENCODE runs, or a second agent's command
  (R308); holds the command word that was running and the store or the second command that intruded (log 6). Safe. -/
  | protocolViolation (word : Word) (intrusion : Intrusion)
  deriving DecidableEq, Repr

/-- The spec's numeric code of a fault (R301). -/
def Fault.code : Fault → Nat
  | .encodeUnevaluated _ => 1
  | .codewordUnwritten _ _ => 2
  | .bitmapNotReady _ => 3
  | .moduleOutOfRange _ _ _ => 4
  | .registerAccessFault _ _ => 5
  | .protocolViolation _ _ => 6

/-- Why a command has no step. -/
inductive Refusal where
  /-- Stuck (R307): ASSEMBLE, or the ASSEMBLE step of ENCODE, reads the host address `addr`, which the host memory does not
  admit. Raised by ASSEMBLE and ENCODE. Safe. -/
  | hostReadRefused (addr : Nat)
  /-- The instruction has no meaning in the model yet; raised by `exec` only. Safe. -/
  | notModelled (mnemonic : String)
  deriving DecidableEq, Repr

/-- The block right after reset (R63), with nothing in host memory and no host access pending. TIER is CONFIG's value (R51);
BM is unspecified (free draw 0) and every codeword is unwritten. -/
def State.reset : State where
  status := ⟨false, false, false, false, false⟩
  dataAddr := 0#32
  ctx := ⟨0#32, 0#2, 0#5, 0#6, 0#7, 0#6, 0#4, 0#2⟩
  maskSel := 0#3
  fmt := 0#15
  score := ⟨0#16, 0#16, 0#16, 0#16, 0#16⟩
  pen := Vector.replicate 8 0#16
  config := BitVec.ofNat 2 Config.tier.val
  bitmap := ⟨Vector.replicate 29 0#32, 0⟩
  cw := Vector.replicate 70 none
  hostMem := []
  pending := []
  readLog := []
  draws := 1

end Sys2Proof.Machine
end

