-- ==== Sys2Proof/Machine/Flags.lean ====
section
/-! DEFINITION. STATUS: its value as the host reads it and the one change each setter and clearer of R36 makes. -/

namespace Sys2Proof.Machine

/-- STATUS as a 32-bit value: bits 0 to 4 are VALID, DONE, EVRES, MODULE, ILL and bits 31:5 read 0 (R36). -/
def Status.toWord (f : Status) : Word :=
  0#27 ++ BitVec.ofBool f.ill ++ BitVec.ofBool f.moduleBit ++ BitVec.ofBool f.evres ++ BitVec.ofBool f.done
    ++ BitVec.ofBool f.valid

/-- EVALUATE that succeeds: VALID and EVRES set, DONE cleared (R36, R115). -/
def Status.evaluated (f : Status) : Status := { f with valid := true, evres := true, done := false }

/-- EVALUATE that fails: VALID and EVRES cleared, nothing else (R36, R116). -/
def Status.rejected (f : Status) : Status := { f with valid := false, evres := false }

/-- PLACE, SELECT and ENCODE set DONE (R36). -/
def Status.placed (f : Status) : Status := { f with done := true }

/-- GET_MODULE returns a module in MODULE (R36, R270). -/
def Status.returned (f : Status) (dark : Bool) : Status := { f with moduleBit := dark }

/-- An illegal command word sets ILL (R36, R278). -/
def Status.illegal (f : Status) : Status := { f with ill := true }

/-- A host write of STATUS clears ILL when bit 4 of the written value is 1 and changes no other field (R36, R274). -/
def Status.hostWrite (f : Status) (v : Word) : Status := { f with ill := f.ill && !v.getLsbD 4 }

end Sys2Proof.Machine
end

