-- ==== Sys2Proof/Machine/Operands.lean ====
section
/-! DEFINITION. Which operand values the commands accept, and the tables an operand selects: capacity, symbol side, layout. -/

namespace Sys2Proof.Machine

/-- `CAP[v]`, the byte-mode capacity of version `v` in {1, 2, 3} (R9). Read for no other `v` (R110). -/
def capacity : Nat → Nat
  | 1 => 17
  | 2 => 32
  | 3 => 53
  | _ => 0

/-- `SIZE(v) = 4·v + 17`, the symbol side (R7, R111). -/
def sideOf (v : Nat) : Nat := 4 * v + 17

/-- The feasibility predicate of EVALUATE: the version is 1, 2 or 3 and the length is at most its capacity (R110). -/
def fits (v len : Nat) : Bool := (v == 1 || v == 2 || v == 3) && decide (len ≤ capacity v)

/-- A row of the layout table: total codewords, data codewords, correction codewords per block, blocks (R112). -/
structure Layout where
  total : Nat
  data  : Nat
  ecc   : Nat
  nblk  : Nat
  deriving DecidableEq, Repr

/-- `LAYOUT[v]` for `v` in {1, 2, 3} (R112). Read for no other `v` (R115). -/
def layoutOf : Nat → Layout
  | 1 => ⟨26, 19, 7, 1⟩
  | 2 => ⟨44, 34, 10, 1⟩
  | 3 => ⟨70, 55, 15, 1⟩
  | _ => ⟨0, 0, 0, 0⟩

/-- The context a successful EVALUATE of version `ver` and length `len` leaves, with the buffer at `addr` (R115). -/
def contextFor (addr : Word) (ver : BitVec 4) (len : BitVec 16) : Context :=
  let lay := layoutOf ver.toNat
  { addr := addr
    version := ver.setWidth 2
    size := BitVec.ofNat 5 (sideOf ver.toNat)
    inlen := len.setWidth 6
    lpTotal := BitVec.ofNat 7 lay.total
    lpData := BitVec.ofNat 6 lay.data
    lpEcc := BitVec.ofNat 4 lay.ecc
    lpNblk := BitVec.ofNat 2 lay.nblk }

/-- A module coordinate inside the symbol: `x < CTX_SIZE` and `y < CTX_SIZE` (R100, R270). -/
def Context.contains (c : Context) (x y : BitVec 5) : Bool :=
  decide (x.toNat < c.size.toNat) && decide (y.toNat < c.size.toNat)

end Sys2Proof.Machine
end

