-- ==== Sys2Proof/Machine/Ops.lean ====
section
/-! DEFINITION. The named operations over host memory, the codeword buffer, the bitmap and the outcomes of a command. The block has
no trap mechanism (R312), so there is no exception entry and no return from one: a violated precondition is a model fault, raised by
the guards below in the order of R309. -/

namespace Sys2Proof.Machine

/-- The outcome of a command or of a host access (R300). -/
abbrev Result := Host.Outcome State Fault Refusal

/-- One part of a command after another: the second runs in the state the first leaves. -/
def andThen (r : Result) (k : State → Result) : Result :=
  match r with
  | .next s => k s
  | .fault f => .fault f
  | .refused q => .refused q

/-! ### Host memory (R70, R72, R73) -/

/-- `MemRead(a, 1)`: the byte the host memory admits at `a`, if it admits one (R72, R73). -/
def Memory.read (m : Memory) (a : Nat) : Option Byte := m.lookup a

/-- The host stores `b` at `a`; the list stays sorted with one entry for each address. -/
def Memory.write : Memory → Nat → Byte → Memory
  | [], a, b => [(a, b)]
  | (a', b') :: rest, a, b =>
    if a < a' then (a, b) :: (a', b') :: rest
    else if a = a' then (a, b) :: rest
    else (a', b') :: Memory.write rest a b

/-- The canonical form: strictly rising addresses, all inside the `2^ADDR_W` bytes of the space (R70). -/
abbrev Memory.wf (m : Memory) : Prop :=
  m.Pairwise (fun p q => p.1 < q.1) ∧ ∀ c ∈ m, c.1 < 2 ^ Config.addrW

/-- The bytes at `a`, `a + 1`, …, read in increasing address order (R73), or the first address that is not admitted. Addresses are
exact integers: an address at or above `2^ADDR_W` is in no memory, so a range that passes the top of the space is not admitted. -/
def Memory.readBytes (m : Memory) (a : Nat) : Nat → Except Nat (List Byte)
  | 0 => .ok []
  | n + 1 =>
    if 2 ^ Config.addrW ≤ a then .error a
    else
      match m.read a with
      | none => .error a
      | some b =>
        match m.readBytes (a + 1) n with
        | .error e => .error e
        | .ok bs => .ok (b :: bs)

/-! ### Writing consecutive entries of a storage array -/

/-- Entries `start`, `start + 1`, … take the listed values, in order; an entry past the end of the array is dropped, and every other
entry is unchanged. -/
def writeFrom {α : Type} {n : Nat} (v : Vector α n) (start : Nat) : List α → Vector α n
  | [] => v
  | b :: bs => writeFrom (if h : start < n then v.set start b h else v) (start + 1) bs

/-! ### The codeword buffer (R56) -/

/-- `CW[i]`, or `none` when it is unwritten (or no entry has that index). -/
def State.codeword (s : State) (i : Nat) : Option Byte := (s.cw[i]?).getD none

/-- The least unwritten index below `n`, if there is one (R303). -/
def State.firstUnwritten (s : State) (n : Nat) : Option Nat := (List.range n).find? fun i => (s.codeword i).isNone

/-- `CW[0..n-1]`, read only where every one of them is written. -/
def State.codewords (s : State) (n : Nat) : List Byte := (List.range n).map fun i => (s.codeword i).getD 0#8

/-- `CW[start + j] <- bs[j]` for every `j`; each entry becomes written, and every other entry is unchanged. -/
def State.writeCodewords (s : State) (start : Nat) (bs : List Byte) : State :=
  { s with cw := writeFrom s.cw start (bs.map some) }

/-! ### The bitmap (R52, R75, R203) -/

/-- A bitmap row with the module of column `x` at bit `31 - x` for `x < n`, and 0 elsewhere (R75). -/
def rowWord (n : Nat) (f : Nat → Bool) : Word :=
  BitVec.ofFnLE fun i : Fin 32 => decide (31 - i.val < n) && f (31 - i.val)

/-- The bits of row `y` that hold modules of a symbol of side `n`: bits `31 - x` with `x < n`, in rows `y < n` (R52). -/
def moduleMask (n y : Nat) : Word := if y < n then rowWord n fun _ => true else 0#32

/-- `WRITEBM`: the rows hold the modules of a symbol from bit 31 down, and what has no defined value takes a new free value (R203). -/
def State.writeBitmap (s : State) (rows : List Word) : State :=
  { s with
    bitmap := { rows := writeFrom s.bitmap.rows 0 rows, draw := s.draws }
    draws := s.draws + 1 }

/-- The side of the square of BM whose bits have a defined value: CTX_SIZE while DONE = 1, and 0 while DONE = 0 (R52, R271). -/
def State.symbolSide (s : State) : Nat := if s.status.done then s.ctx.size.toNat else 0

/-- The stored word of bitmap row `y`; there is no row above 28. -/
def Bitmap.row (b : Bitmap) (y : Nat) : Word := (b.rows[y]?).getD 0#32

/-- The row word BM[y] as the host reads it (R52, R271): the module bits of the symbol as written, every other bit a free value. -/
def State.bitmapWord (s : State) (y : Nat) : Word :=
  let mask := moduleMask s.symbolSide y
  (s.bitmap.row y &&& mask) ||| (Config.freeRow s.bitmap.draw y &&& ~~~mask)

/-- The bit `BM[y][31 - x]` (R52, R75, R271). -/
def State.moduleAt (s : State) (x y : Nat) : Bool :=
  if x < s.symbolSide ∧ y < s.symbolSide then (s.bitmap.row y).getLsbD (31 - x)
  else (Config.freeRow s.bitmap.draw y).getLsbD (31 - x)

/-! ### Preconditions (R301 to R305, R309) -/

/-- The command `word` needs STATUS.VALID = 1; checked before anything else it does (R302). -/
def requireValid (word : Word) (s : State) (k : Result) : Result :=
  if s.status.valid then k else .fault (.encodeUnevaluated word)

/-- The command `word` reads CW[0..n-1]; the least unwritten entry faults, before any write (R303). -/
def requireWritten (word : Word) (n : Nat) (s : State) (k : Result) : Result :=
  match s.firstUnwritten n with
  | some i => .fault (.codewordUnwritten word i)
  | none => k

/-- The command `word` reads the symbol in BM, so it needs STATUS.DONE = 1 (R304). -/
def requireDone (word : Word) (s : State) (k : Result) : Result :=
  if s.status.done then k else .fault (.bitmapNotReady word)

/-! ### Reset (R330) -/

/-- Reset puts every register and storage entry in the state of R63 and does nothing else: host memory, what the host does next, what
it has read and TIER stay, and the unspecified BM takes a new free draw. -/
def State.resetBlock (s : State) : State :=
  { State.reset with
    config := s.config
    bitmap := { State.reset.bitmap with draw := s.draws }
    hostMem := s.hostMem
    pending := s.pending
    readLog := s.readLog
    draws := s.draws + 1 }

end Sys2Proof.Machine
end

