-- ==== Sys2Proof/Machine/Emit.lean ====
section
/-! DEFINITION. The bitmap emitter and the control commands: GET_MODULE (R270), NOP (R272) and ILLEGAL (R278). -/

namespace Sys2Proof.Machine

/-- GET_MODULE (R270): BitmapNotReady is checked before ModuleOutOfRange (R305, R309). -/
def execGetModule (x y : BitVec 5) (s : State) : Result :=
  requireDone (encode (.getModule x y)) s <|
    if s.ctx.contains x y then
      .next { s with status := s.status.returned (s.moduleAt x.toNat y.toNat) }
    else .fault (.moduleOutOfRange x.toNat y.toNat s.ctx.size.toNat)

/-- NOP (R272). -/
def execNop (s : State) : Result := .next s

/-- ILLEGAL (R278): STATUS.ILL is set and nothing else changes; no part of the word is executed. -/
def execIllegal (_w : Word) (s : State) : Result := .next { s with status := s.status.illegal }

end Sys2Proof.Machine
end

