-- ==== Sys2Proof/Machine/FrontEnd.lean ====
section
/-! DEFINITION. The front end: EVALUATE (R115, R116) and ASSEMBLE (R117 to R126). -/

namespace Sys2Proof.Machine

/-- EVALUATE (R115): on success the whole context is replaced, VALID and EVRES set and DONE cleared; on failure only VALID and
EVRES are cleared (R116). No input byte is read. -/
def execEvaluate (ver : BitVec 4) (len : BitVec 16) (s : State) : Result :=
  if fits ver.toNat len.toNat then
    .next { s with ctx := contextFor s.dataAddr ver len, status := s.status.evaluated }
  else
    .next { s with status := s.status.rejected }

/-- The `n` low bits of `v`, most significant first (R118, R119, R123). -/
def bitsOf (n v : Nat) : List Bool := (List.range n).map fun i => v.testBit (n - 1 - i)

/-- The byte whose bits, most significant first, are `bits` (R123). -/
def byteOf (bits : List Bool) : Byte := bits.foldl (fun acc b => acc <<< 1 ||| (BitVec.ofBool b).setWidth 8) 0#8

/-- The bitstream before the terminator: the byte-mode indicator 0100, the 8-bit length, the input bytes (R117 to R119). -/
def segmentBits (input : List Byte) : List Bool :=
  [false, true, false, false] ++ bitsOf 8 input.length ++ input.flatMap fun b => bitsOf 8 b.toNat

/-- The bitstream with its terminator of `min(4, 8·D − ℓ)` zeros (R120) and zeros up to a multiple of 8 bits (R121). -/
def terminatedBits (dataCount : Nat) (input : List Byte) : List Bool :=
  let seg := segmentBits input
  let bits := seg ++ List.replicate (min 4 (8 * dataCount - seg.length)) false
  bits ++ List.replicate ((8 - bits.length % 8) % 8) false

/-- Codeword `i` is bits `8i` to `8i + 7` of the bitstream (R123). -/
def packBits (bits : List Bool) : List Byte :=
  (List.range (bits.length / 8)).map fun i => byteOf ((bits.drop (8 * i)).take 8)

/-- The pad codewords `0xEC, 0x11, 0xEC, …` (R122). -/
def padCodewords (count : Nat) : List Byte := (List.range count).map fun j => if j % 2 = 0 then 0xEC#8 else 0x11#8

/-- The data codewords for `dataCount` places: the packed bitstream, then pad codewords (R122, R125). -/
def dataCodewords (dataCount : Nat) (input : List Byte) : List Byte :=
  let packed := packBits (terminatedBits dataCount input)
  packed ++ padCodewords (dataCount - packed.length)

/-- The assembler's effect, for the command `word` (ASSEMBLE, or ENCODE whose first step it is) (R125). The input bytes are read
when the command runs, in increasing address order (R73); a byte that is not admitted leaves the command stuck (R307). -/
def assembleFor (word : Word) (s : State) : Result :=
  requireValid word s <|
    match s.hostMem.readBytes s.ctx.addr.toNat s.ctx.inlen.toNat with
    | .error a => .refused (.hostReadRefused a)
    | .ok input => .next (s.writeCodewords 0 (dataCodewords s.ctx.lpData.toNat input))

/-- ASSEMBLE (R125). -/
def execAssemble (s : State) : Result := assembleFor (encode .assemble) s

end Sys2Proof.Machine
end

