-- ==== Sys2Proof/Machine/Placement.lean ====
section
/-! DEFINITION. The placement engine: fixed patterns (R182 to R189), format information (R190 to R196), data threading (R197 to R199),
masks (R200, R201), the complete grid (R202), PLACE (R205) and FORMAT_WORD (R206). Coordinates are (x, y) = (column, row) (R15). -/

namespace Sys2Proof.Machine

/-- The modules of a grid as a function of column and row (R58, R180). A value inside a command only: no state holds one. -/
abbrev Grid := Nat → Nat → Bool

/-! ### Fixed patterns (`n` is the symbol side) -/

/-- `|a − b|`. -/
def absDiff (a b : Nat) : Nat := (a - b) + (b - a)

/-- `max(|x − cx|, |y − cy|)`. -/
def ringOf (cx cy x y : Nat) : Nat := max (absDiff x cx) (absDiff y cy)

/-- The distance of a module from the nearest finder centre: (3, 3), (n − 4, 3) and (3, n − 4) (R182). -/
def finderRing (n x y : Nat) : Nat :=
  min (ringOf 3 3 x y) (min (ringOf (n - 4) 3 x y) (ringOf 3 (n - 4) x y))

/-- A module of a finder pattern (R182). -/
def isFinder (n x y : Nat) : Bool := decide (finderRing n x y ≤ 3)

/-- A module of a separator (R183). -/
def isSeparator (n x y : Nat) : Bool := finderRing n x y == 4

/-- A module of a timing pattern: row 6 or column 6, from 8 to n − 9 (R184). -/
def isTiming (n x y : Nat) : Bool :=
  (y == 6 && decide (8 ≤ x) && decide (x ≤ n - 9)) || (x == 6 && decide (8 ≤ y) && decide (y ≤ n - 9))

/-- The dark module (8, n − 8) (R185). -/
def isDarkModule (n x y : Nat) : Bool := x == 8 && y == n - 8

/-- A module of the alignment pattern, for version 2 and above, centred at (n − 7, n − 7) (R186). -/
def isAlignment (v x y : Nat) : Bool := decide (2 ≤ v) && decide (ringOf (sideOf v - 7) (sideOf v - 7) x y ≤ 2)

/-- Copy A of the format word: bit `i` goes to module `A(i)` (R194). -/
def formatA : List (Nat × Nat) :=
  [(8, 0), (8, 1), (8, 2), (8, 3), (8, 4), (8, 5), (8, 7), (8, 8), (7, 8), (5, 8), (4, 8), (3, 8), (2, 8), (1, 8), (0, 8)]

/-- Copy B of the format word: bit `i` goes to module `B(i)` (R195). -/
def formatB (n : Nat) : List (Nat × Nat) :=
  (List.range 15).map fun i => if i < 8 then (n - 1 - i, 8) else (8, n - 15 + i)

/-- Which bit of the format word the module holds, if it is a format module (R187, R194, R195). -/
def formatBit (n x y : Nat) : Option Nat :=
  match formatA.idxOf? (x, y) with
  | some i => some i
  | none => (formatB n).idxOf? (x, y)

/-- The reserved map RSV: every module of a fixed pattern or of the format information (R180, R187). -/
def reserved (v x y : Nat) : Bool :=
  let n := sideOf v
  isFinder n x y || isSeparator n x y || isTiming n x y || isDarkModule n x y || isAlignment v x y
    || (formatBit n x y).isSome

/-! ### Format information -/

/-- One step of the division by 0x537, for bit `i` (R192). -/
def bchStep (r : BitVec 15) (i : Nat) : BitVec 15 := if r.getLsbD i then r ^^^ 0x537#15 <<< (i - 10) else r

/-- `FMTWORD(m)`: the level code 01 and the mask index, their ten check bits, and the fixed pattern 0x5412 (R190 to R192). -/
def fmtWord (m : BitVec 3) : BitVec 15 :=
  let d : BitVec 15 := (0b01#2 ++ m).setWidth 15
  let r := [14, 13, 12, 11, 10].foldl bchStep (d <<< 10)
  (d <<< 10 ||| r &&& 0x3FF#15) ^^^ 0x5412#15

/-! ### The value of a reserved module -/

/-- The module of a fixed pattern or of a format copy, in the grid whose mask is `m` (R182 to R186, R196). No two of these
patterns overlap (R189), so the order of the tests is of no consequence. -/
def functionModule (v : Nat) (m : BitVec 3) (x y : Nat) : Bool :=
  let n := sideOf v
  if isFinder n x y then finderRing n x y != 2
  else if isSeparator n x y then false
  else if isTiming n x y then (if y = 6 then x % 2 == 0 else y % 2 == 0)
  else if isDarkModule n x y then true
  else if isAlignment v x y then ringOf (n - 7) (n - 7) x y != 1
  else
    match formatBit n x y with
    | some i => (fmtWord m).getLsbD i
    | none => false

/-! ### Data threading -/

/-- The right columns of the column pairs, in visiting order: from `right`, skipping the timing column 6 (R197). The first argument
bounds the number of pairs. -/
def pairColumns : Nat → Nat → List Nat
  | 0, _ => []
  | fuel + 1, right =>
    if 1 ≤ right then
      let right := if right = 6 then 5 else right
      right :: pairColumns fuel (right - 2)
    else []

/-- The modules of one column pair in visiting order: upward or downward, the right column before the left (R197). -/
def pairModules (n right : Nat) : List (Nat × Nat) :=
  let upward := (right + 1) &&& 2 == 0
  (List.range n).flatMap fun vert =>
    let y := if upward then n - 1 - vert else vert
    [(right, y), (right - 1, y)]

/-- `ZIGZAG(N, RSV)`: the data modules in visiting order (R197). -/
def zigzag (v : Nat) : List (Nat × Nat) :=
  let n := sideOf v
  ((pairColumns n (n - 1)).flatMap (pairModules n)).filter fun p => !reserved v p.1 p.2

/-- Bit `i` of the codeword stream, most significant bit of codeword 0 first (R198); past its end, a remainder bit 0 (R199). -/
def streamBit (stream : List Byte) (i : Nat) : Bool :=
  decide (i < 8 * stream.length) && (stream.getD (i / 8) 0x00#8).getLsbD (7 - i % 8)

/-- The row words with the module at (x, y) made dark. -/
def setDark (rows : List Word) (x y : Nat) : List Word := rows.modify y fun row => row ||| BitVec.twoPow 32 (31 - x)

/-- The grid's row words with nothing but the stream, before masking: data module `order[i]` receives stream bit `i` (R198, R199). -/
def threadRows (n : Nat) (order : List (Nat × Nat)) (stream : List Byte) : List Word :=
  order.zipIdx.foldl
    (fun rows p => if streamBit stream p.2 then setDark rows p.1.1 p.1.2 else rows)
    (List.replicate n 0#32)

/-- The grid that row words hold: module (x, y) is bit 31 - x of row `y` (R75). -/
def gridOf (rows : List Word) : Grid := fun x y => (rows.getD y 0#32).getLsbD (31 - x)

/-! ### Masks -/

/-- `MASKF(m, x, y)`: whether mask `m` inverts the data module (x, y) (R200). -/
def maskFn (m : BitVec 3) (x y : Nat) : Bool :=
  match m.toNat with
  | 0 => (x + y) % 2 == 0
  | 1 => y % 2 == 0
  | 2 => x % 3 == 0
  | 3 => (x + y) % 3 == 0
  | 4 => (y / 2 + x / 3) % 2 == 0
  | 5 => (x * y) % 2 + (x * y) % 3 == 0
  | 6 => ((x * y) % 2 + (x * y) % 3) % 2 == 0
  | _ => ((x + y) % 2 + (x * y) % 3) % 2 == 0

/-! ### The placement function -/

/-- `PLACEGRID(v, S, m)` (R202), as the row words of a symbol of side `4·v + 17`: a reserved module has its fixed or format value, a
data module its stream bit inverted where the mask says so (R201). Masking never reaches a reserved module (R196, R201). -/
def placeRows (v : Nat) (stream : List Byte) (m : BitVec 3) : List Word :=
  let n := sideOf v
  let data := threadRows n (zigzag v) stream
  (List.range n).map fun y =>
    rowWord n fun x => if reserved v x y then functionModule v m x y else gridOf data x y ^^ maskFn m x y

/-- `PLACEGRID(v, S, m)` as a grid (R202). -/
def placeGrid (v : Nat) (stream : List Byte) (m : BitVec 3) : Grid := gridOf (placeRows v stream m)

/-! ### PLACE and FORMAT_WORD -/

/-- A complete symbol is committed: the grid of version `v`, the stream and mask `m` is written to BM, its mask to MASK_SEL and its
format word to FMT, and DONE is set (R203, R205, R245). -/
def State.commitSymbol (s : State) (v : Nat) (stream : List Byte) (m : BitVec 3) : State :=
  { s.writeBitmap (placeRows v stream m) with maskSel := m, fmt := fmtWord m, status := s.status.placed }

/-- PLACE (R205). -/
def execPlace (m : BitVec 3) (s : State) : Result :=
  requireValid (encode (.place m)) s <|
    requireWritten (encode (.place m)) s.ctx.lpTotal.toNat s <|
      .next (s.commitSymbol s.ctx.version.toNat (s.codewords s.ctx.lpTotal.toNat) m)

/-- FORMAT_WORD (R206). -/
def execFormatWord (m : BitVec 3) (s : State) : Result := .next { s with fmt := fmtWord m }

end Sys2Proof.Machine
end

