-- ==== Sys2Proof/Machine/ReedSolomon.lean ====
section
/-! DEFINITION. The Reed–Solomon encoder over GF(256): the field (R140 to R147), the generator polynomials (R148, R149), the
systematic code (R150), the block interleave (R153) and RS_ENCODE (R155). -/

namespace Sys2Proof.Machine

/-! ### The field -/

/-- One round of `gf_mul`: the working value is shifted, reduced by 0x11D when its bit 8 is 1, and `a` is added when bit `i` of `b`
is 1 (R143). -/
def gfMulRound (a b : Byte) (r : BitVec 9) (i : Nat) : BitVec 9 :=
  let shifted := r <<< 1
  let reduced := if shifted.getLsbD 8 then shifted ^^^ 0x11D#9 else shifted
  if b.getLsbD i then reduced ^^^ a.setWidth 9 else reduced

/-- `a ⊗ b`, the product of the polynomials modulo `x^8 + x^4 + x^3 + x^2 + 1` (R141, R143). -/
def gfMul (a b : Byte) : Byte := ([7, 6, 5, 4, 3, 2, 1, 0].foldl (gfMulRound a b) 0#9).setWidth 8

/-- The next power of `α = 0x02` (R142). -/
def gfDouble (v : Byte) : Byte := v <<< 1 ^^^ (if v.getLsbD 7 then 0x1D#8 else 0#8)

/-- `α^i` by repeated doubling (R142). -/
def gfPow : Nat → Byte
  | 0 => 0x01#8
  | i + 1 => gfDouble (gfPow i)

/-- `EXP[i]`, with `EXP[i] = EXP[i mod 255]` for `i ≥ 255` (R142, R146). -/
def gfExp (i : Nat) : Byte := gfPow (i % 255)

/-- `LOG[v]`, the `i` in 0..254 with `EXP[i] = v`; `LOG[0]` has no value (R142, R147, U19). -/
def gfLog (v : Byte) : Option Nat := (List.range 255).find? fun i => gfExp i == v

/-- Multiplication by log and antilog tables, the other form a tier may use (R144). The encoder is written with `gfMul`. -/
def gfMulByLog (a b : Byte) : Byte :=
  match gfLog a, gfLog b with
  | some i, some j => gfExp (i + j)
  | _, _ => 0x00#8

/-- Division, which no rule uses; `a / 0` has no value (R145, U20). -/
def gfDiv (a b : Byte) : Option Byte :=
  match gfLog b with
  | none => none
  | some j =>
    match gfLog a with
    | none => some 0x00#8
    | some i => some (gfExp ((i + 255 - j) % 255))

/-- The inverse of a nonzero element (R145). -/
def gfInv (b : Byte) : Option Byte := (gfLog b).map fun j => gfExp ((255 - j) % 255)

/-! ### Generator polynomials -/

/-- A polynomial, highest degree first, times `(x − root)`; addition and subtraction are exclusive-or (R140, R148). -/
def mulRoot (p : List Byte) (root : Byte) : List Byte :=
  List.zipWith (· ^^^ ·) (p ++ [0x00#8]) (0x00#8 :: p.map (gfMul · root))

/-- `GEN[n] = (x − α^0) … (x − α^(n−1))`, coefficients highest degree first (R148). -/
def generator (n : Nat) : List Byte := (List.range n).foldl (fun p i => mulRoot p (gfExp i)) [0x01#8]

/-! ### The systematic code -/

/-- One step of the division register for the data codeword `d`, with `g` the generator (R150). -/
def rsStep (g r : List Byte) (d : Byte) : List Byte :=
  let f := d ^^^ r.headD 0x00#8
  List.zipWith (fun a c => a ^^^ gfMul c f) (r.tail ++ [0x00#8]) g.tail

/-- `RSREM(d, n)`, the `n` correction codewords of the data codewords `d` (R150). -/
def rsRemainder (d : List Byte) (n : Nat) : List Byte :=
  d.foldl (rsStep (generator n)) (List.replicate n 0x00#8)

/-- The value at `x` of the polynomial with coefficients `c`, highest degree first, by Horner's rule (R151). -/
def polyValue (c : List Byte) (x : Byte) : Byte := c.foldl (fun acc b => gfMul acc x ^^^ b) 0x00#8

/-- The column-wise interleave of the lists: entry 0 of each in turn, then entry 1 of each that has one, and so on (R153). -/
def interleave (parts : List (List Byte)) : List Byte :=
  (List.range ((parts.map List.length).foldl max 0)).flatMap fun i => parts.filterMap (·[i]?)

/-- The codeword stream of several blocks: their data interleaved, then their correction codewords interleaved (R153). Every
in-scope version has one block, so no command builds a stream of more (R154). -/
def blockStream (blocks : List (List Byte)) (n : Nat) : List Byte :=
  interleave blocks ++ interleave (blocks.map (rsRemainder · n))

/-! ### RS_ENCODE -/

/-- The coder's effect, for the command `word` (RS_ENCODE, or ENCODE whose second step it is): the correction codewords of
`CW[0..LP_DATA−1]` are written after them; LP_NBLK is 1 for every version (R154, R155). -/
def rsEncodeFor (word : Word) (s : State) : Result :=
  requireValid word s <|
    requireWritten word s.ctx.lpData.toNat s <|
      .next (s.writeCodewords s.ctx.lpData.toNat
        (rsRemainder (s.codewords s.ctx.lpData.toNat) s.ctx.lpEcc.toNat))

/-- RS_ENCODE (R155). -/
def execRsEncode (s : State) : Result := rsEncodeFor (encode .rsEncode) s

end Sys2Proof.Machine
end

