-- ==== Sys2Proof/Machine/MaskSelect.lean ====
section
/-! DEFINITION. The penalty scorer (R230 to R237), the mask selector (R238, R239), and SCORE (R240), SELECT (R245) and ENCODE (R250). -/

namespace Sys2Proof.Machine

/-! ### The four penalty rules -/

/-- The `2n` lines of a grid: its rows, then its columns (R231). -/
def gridLines (n : Nat) (g : Grid) : List (List Bool) :=
  ((List.range n).map fun y => (List.range n).map fun x => g x y)
    ++ ((List.range n).map fun x => (List.range n).map fun y => g x y)

/-- The penalty of a run of `len` equal modules (R232). -/
def runPenalty (len : Nat) : Nat := if 5 ≤ len then 3 + (len - 5) else 0

/-- N1 of one line: the sum over its maximal runs of equal modules (R232). -/
def lineRuns (line : List Bool) : Nat := ((line.splitBy (· == ·)).map fun run => runPenalty run.length).sum

/-- The window is one of the two finder-like patterns, a finder core with four light modules on one side (R234). -/
def finderLike (window : List Bool) : Bool :=
  window == [true, false, true, true, true, false, true, false, false, false, false]
    || window == [false, false, false, false, true, false, true, true, true, false, true]

/-- How many windows of 11 modules, each inside the line, are finder-like (R234). -/
def lineWindows (line : List Bool) : Nat :=
  (List.range (line.length - 10)).countP fun i => finderLike ((line.drop i).take 11)

/-- How many 2×2 blocks of the grid have one colour (R233). -/
def equalBlocks (n : Nat) (g : Grid) : Nat :=
  ((List.range (n - 1)).map fun y =>
    (List.range (n - 1)).countP fun x => g x y == g (x + 1) y && g x y == g x (y + 1) && g x y == g (x + 1) (y + 1)).sum

/-- How many modules of the grid are dark (R235). -/
def darkCount (n : Nat) (g : Grid) : Nat :=
  ((List.range n).map fun y => (List.range n).countP fun x => g x y).sum

/-- N1, runs (R232). -/
def penaltyN1 (n : Nat) (g : Grid) : Nat := ((gridLines n g).map lineRuns).sum

/-- N2, blocks (R233). -/
def penaltyN2 (n : Nat) (g : Grid) : Nat := 3 * equalBlocks n g

/-- N3, finder-like patterns (R234). -/
def penaltyN3 (n : Nat) (g : Grid) : Nat := 40 * ((gridLines n g).map lineWindows).sum

/-- N4, balance: `10·(|20·dark − 10·T| div T)` with `T = n²` (R235). -/
def penaltyN4 (n : Nat) (g : Grid) : Nat := 10 * (absDiff (20 * darkCount n g) (10 * (n * n)) / (n * n))

/-- The four terms of a score (R236). -/
structure Penalty where
  n1 : Nat
  n2 : Nat
  n3 : Nat
  n4 : Nat
  deriving DecidableEq, Repr

/-- `PENALTY(G)` (R236). -/
def penaltyOf (n : Nat) (g : Grid) : Penalty := ⟨penaltyN1 n g, penaltyN2 n g, penaltyN3 n g, penaltyN4 n g⟩

/-- `TOTAL(G)` (R236). -/
def penaltyTotal (p : Penalty) : Nat := p.n1 + p.n2 + p.n3 + p.n4

/-- The SCORE registers of a penalty; 16 bits hold every value (R48, R49, R237). -/
def scoreOf (p : Penalty) : Score :=
  { total := BitVec.ofNat 16 (penaltyTotal p)
    n1 := BitVec.ofNat 16 p.n1
    n2 := BitVec.ofNat 16 p.n2
    n3 := BitVec.ofNat 16 p.n3
    n4 := BitVec.ofNat 16 p.n4 }

/-! ### SCORE -/

/-- SCORE (R240): the modules now in BM, of a symbol of side CTX_SIZE. -/
def execScore (s : State) : Result :=
  requireDone (encode .score) s <|
    .next { s with score := scoreOf (penaltyOf s.ctx.size.toNat s.moduleAt) }

/-! ### SELECT -/

/-- The penalty of candidate `m`: that of its complete grid, format copies included (R230). -/
def candidatePenalty (v : Nat) (stream : List Byte) (m : BitVec 3) : Penalty :=
  let rows := placeRows v stream m
  penaltyOf (sideOf v) (gridOf rows)

/-- The penalties of the eight candidates, in mask order. -/
def candidates (v : Nat) (stream : List Byte) : List Penalty :=
  (List.range 8).map fun m => candidatePenalty v stream (BitVec.ofNat 3 m)

/-- The index of the first least total, given the best so far (`best`, with total `bestTotal`) and the index `m` of the head: a
candidate replaces the best only when its total is strictly lower (R238, R245). -/
def firstMinimum (best bestTotal m : Nat) : List Nat → Nat
  | [] => best
  | t :: rest => if t < bestTotal then firstMinimum m t (m + 1) rest else firstMinimum best bestTotal (m + 1) rest

/-- The winning mask among the totals of candidates 0, 1, … (R238). -/
def winner : List Nat → Nat
  | [] => 0
  | t :: rest => firstMinimum 0 t 1 rest

/-- The mask that SELECT chooses for a stream: the least index among the candidates of least total (R238). -/
def winningMask (v : Nat) (stream : List Byte) : BitVec 3 :=
  BitVec.ofNat 3 (winner ((candidates v stream).map penaltyTotal))

/-- What SELECT leaves for version `v` and a stream: PEN holds all eight totals, and the winner's grid, index, format word and score
are committed (R245). -/
def State.commitWinner (s : State) (v : Nat) (stream : List Byte) : State :=
  { s.commitSymbol v stream (winningMask v stream) with
    pen := writeFrom s.pen 0 ((candidates v stream).map fun p => BitVec.ofNat 16 (penaltyTotal p))
    score := scoreOf (candidatePenalty v stream (winningMask v stream)) }

/-- The selector's effect, for the command `word` (SELECT, or ENCODE whose last step it is) (R245). -/
def selectFor (word : Word) (s : State) : Result :=
  requireValid word s <|
    requireWritten word s.ctx.lpTotal.toNat s <|
      .next (s.commitWinner s.ctx.version.toNat (s.codewords s.ctx.lpTotal.toNat))

/-- SELECT (R245). -/
def execSelect (s : State) : Result := selectFor (encode .select) s

/-! ### ENCODE -/

/-- ENCODE (R250): the assembler, the coder and the selector as one atomic command. -/
def execEncode (s : State) : Result :=
  requireValid (encode .encode) s <|
    andThen (assembleFor (encode .encode) s) fun s₁ =>
      andThen (rsEncodeFor (encode .encode) s₁) fun s₂ => selectFor (encode .encode) s₂

end Sys2Proof.Machine
end

