-- ==== Sys2Proof/Machine/Dispatch.lean ====
section
/-! DEFINITION. One arm per constructor of `Instr`, each one direct call of that command's meaning. -/

namespace Sys2Proof.Machine

def exec (i : Instr) (s : State) : Host.Outcome State Fault Refusal :=
  match i with
  | .nop => Sys2Proof.Machine.execNop s
  | .evaluate ver len => Sys2Proof.Machine.execEvaluate ver len s
  | .encode => Sys2Proof.Machine.execEncode s
  | .getModule x y => Sys2Proof.Machine.execGetModule x y s
  | .assemble => Sys2Proof.Machine.execAssemble s
  | .rsEncode => Sys2Proof.Machine.execRsEncode s
  | .place m => Sys2Proof.Machine.execPlace m s
  | .score => Sys2Proof.Machine.execScore s
  | .select => Sys2Proof.Machine.execSelect s
  | .formatWord m => Sys2Proof.Machine.execFormatWord m s
  | .illegal w => Sys2Proof.Machine.execIllegal w s

end Sys2Proof.Machine
end

