-- ==== Sys2Proof/Machine/Bus.lean ====
section
/-! DEFINITION. The register space (R33, R34, R71) and what each thing the outside world does makes the block do. -/

namespace Sys2Proof.Machine

/-! ### The register map -/

/-- The registers by name (R34). -/
inductive Reg where
  | cmd | status | dataAddr | ctxAddr | ctxVersion | ctxSize | ctxInlen | lpTotal | lpData | lpEcc | lpNblk | maskSel | fmt
  | scoreTotal | scoreN1 | scoreN2 | scoreN3 | scoreN4 | config
  | pen (m : Fin 8)
  | bm (y : Fin 29)
  | cww (i : Fin 70)
  | reserved
  deriving DecidableEq, Repr

/-- The register at an aligned byte offset; every offset the map does not list is reserved (R34, R54). -/
def regAt (off : Nat) : Reg :=
  match off with
  | 0x000 => .cmd
  | 0x004 => .status
  | 0x008 => .dataAddr
  | 0x00C => .ctxAddr
  | 0x010 => .ctxVersion
  | 0x014 => .ctxSize
  | 0x018 => .ctxInlen
  | 0x01C => .lpTotal
  | 0x020 => .lpData
  | 0x024 => .lpEcc
  | 0x028 => .lpNblk
  | 0x02C => .maskSel
  | 0x030 => .fmt
  | 0x034 => .scoreTotal
  | 0x038 => .scoreN1
  | 0x03C => .scoreN2
  | 0x040 => .scoreN3
  | 0x044 => .scoreN4
  | 0x048 => .config
  | _ =>
    if h : 0x080 ≤ off ∧ (off - 0x080) / 4 < 8 then .pen ⟨(off - 0x080) / 4, h.2⟩
    else if h : 0x100 ≤ off ∧ (off - 0x100) / 4 < 29 then .bm ⟨(off - 0x100) / 4, h.2⟩
    else if h : 0x200 ≤ off ∧ (off - 0x200) / 4 < 70 then .cww ⟨(off - 0x200) / 4, h.2⟩
    else .reserved

/-- The access is one aligned 32-bit word of the register space (R71, log 7). -/
def regAccessible (off size : Nat) : Bool := size == 4 && off % 4 == 0 && decide (off ≤ 0x3FC)

/-! ### Reads and writes -/

/-- `RegRead(off)`: the value the register's rule gives, its unused bits 0 (R33, R276, R277). An unwritten codeword reads as a free
low byte (R276, log 2). -/
def readReg (r : Reg) (s : State) : Word :=
  match r with
  | .cmd => 0#32
  | .status => s.status.toWord
  | .dataAddr => s.dataAddr
  | .ctxAddr => s.ctx.addr
  | .ctxVersion => s.ctx.version.setWidth 32
  | .ctxSize => s.ctx.size.setWidth 32
  | .ctxInlen => s.ctx.inlen.setWidth 32
  | .lpTotal => s.ctx.lpTotal.setWidth 32
  | .lpData => s.ctx.lpData.setWidth 32
  | .lpEcc => s.ctx.lpEcc.setWidth 32
  | .lpNblk => s.ctx.lpNblk.setWidth 32
  | .maskSel => s.maskSel.setWidth 32
  | .fmt => s.fmt.setWidth 32
  | .scoreTotal => s.score.total.setWidth 32
  | .scoreN1 => s.score.n1.setWidth 32
  | .scoreN2 => s.score.n2.setWidth 32
  | .scoreN3 => s.score.n3.setWidth 32
  | .scoreN4 => s.score.n4.setWidth 32
  | .config => s.config.setWidth 32
  | .pen m => s.pen[m].setWidth 32
  | .bm y => s.bitmapWord y.val
  | .cww i => ((s.cw[i]).getD (Config.freeByte s.draws)).setWidth 32
  | .reserved => 0#32

/-- `RegWrite(off, v)` (R273 to R277): CMD executes the command `v` (R35); DATA_ADDR, STATUS.ILL and CWW[i] change as their rules
say; a write to a read-only register or a reserved offset is ignored. -/
def writeReg (r : Reg) (v : Word) (s : State) : Result :=
  match r with
  | .cmd => exec (decode v) s
  | .status => .next { s with status := s.status.hostWrite v }
  | .dataAddr => .next { s with dataAddr := v }
  | .cww i => .next (s.writeCodewords i.val [v.setWidth 8])
  | .ctxAddr | .ctxVersion | .ctxSize | .ctxInlen | .lpTotal | .lpData | .lpEcc | .lpNblk | .maskSel | .fmt | .scoreTotal
  | .scoreN1 | .scoreN2 | .scoreN3 | .scoreN4 | .config | .pen _ | .bm _ | .reserved => .next s

/-- A register write of `size` bytes: RegisterAccessFault comes before decoding (R306, R309). -/
def hostWrite (off size : Nat) (v : Word) (s : State) : Result :=
  if regAccessible off size then writeReg (regAt off) v s else .fault (.registerAccessFault off size)

/-- A register read of `size` bytes: the host gets the value, and nothing of the block changes (R78). The draw counter moves on, so
that two reads of an unwritten codeword are two free values (log 2). -/
def hostRead (off size : Nat) (s : State) : Result :=
  if regAccessible off size then
    .next { s with readLog := readReg (regAt off) s :: s.readLog, draws := s.draws + 1 }
  else .fault (.registerAccessFault off size)

/-- The host stores a byte into its own memory (R340). -/
def hostStore (addr : Word) (value : Byte) (s : State) : State :=
  { s with hostMem := s.hostMem.write addr.toNat value }

/-! ### Contended commands (R82, R308, log 6) -/

/-- The command reads host memory: ASSEMBLE, and ENCODE through it (R70). -/
def readsHostMemory : Instr → Bool
  | .assemble | .encode => true
  | .nop | .evaluate _ _ | .getModule _ _ | .rsEncode | .place _ | .score | .select | .formatWord _ | .illegal _ => false

/-- The address is in the input buffer `[CTX_ADDR, CTX_ADDR + CTX_INLEN)` (R82). -/
def inInputBuffer (s : State) (addr : Word) : Bool :=
  decide (s.ctx.addr.toNat ≤ addr.toNat) && decide (addr.toNat < s.ctx.addr.toNat + s.ctx.inlen.toNat)

/-- The command `word` with an intrusion while it runs: a store into the input buffer of a command that reads it, and any second
agent's command, is a ProtocolViolation (R82, R301, R308), which records both the running word and the intrusion; any other store cannot
be told from one after the command. -/
def contended (word : Word) (intrusion : Intrusion) (s : State) : Result :=
  match intrusion with
  | .command _ => .fault (.protocolViolation word intrusion)
  | .store addr value =>
    if readsHostMemory (decode word) && inInputBuffer s addr then .fault (.protocolViolation word intrusion)
    else andThen (exec (decode word) s) fun s' => .next (hostStore addr value s')

/-- What one thing the outside world does makes the block do. -/
def runEvent (e : HostEvent) (s : State) : Result :=
  match e with
  | .regWrite off size v => hostWrite off size v s
  | .regRead off size => hostRead off size s
  | .memStore addr value => .next (hostStore addr value s)
  | .reset => .next s.resetBlock
  | .contendedCommand word intrusion => contended word intrusion s

/-- The host's next access, if it has one; otherwise the block waits (R332). -/
def runPending (s : State) : Result :=
  match s.pending with
  | [] => .next s
  | e :: rest => runEvent e { s with pending := rest }

/-- The host's next access is the CMD write of the word `w` (R35). -/
def queueCommand (s : State) (w : Word) : State := { s with pending := .regWrite 0x000 4 w :: s.pending }

end Sys2Proof.Machine
end

