-- ==== Sys2Proof/Machine/Step.lean ====
section
/-! DEFINITION. One step of the machine: the host's next access, run whole (R77, R345). -/

namespace Sys2Proof.Machine

/-- One step: the next thing the host does, or nothing when it does nothing (R332, R345). -/
def step (s : State) : Host.Outcome State Fault Refusal := runPending s

/-- `s` with the command word of the table's bits written to CMD as the host's very next access, so that the next step decodes and
runs it (R31, R35, log 5). -/
def State.withFetchWord (s : State) (nbits w : Nat) : State := queueCommand s (tableWord nbits w)

end Sys2Proof.Machine
end

