-- ==== Sys2Proof/Machine/HostProgram.lean ====
section
/-! DEFINITION. The lines of a host program and the register accesses they stand for (R102, R103). -/

namespace Sys2Proof.Machine

/-- A line of a host program, with its operands as the text gives them (R102), or a pseudo-instruction (R103). -/
inductive HostLine where
  | wr (off v : Nat)
  | rd (off : Nat)
  | nop
  | evaluate (v len : Nat)
  | encode
  | getModule (x y : Nat)
  | assemble
  | rsEncode
  | place (m : Nat)
  | score
  | select
  | formatWord (m : Nat)
  | setAddr (a : Nat)
  | clrIll
  | ldCw (i b : Nat)
  | rdCw (i : Nat)
  | rdRow (y : Nat)
  | rdStat
  | rdPen (m : Nat)
  | encodeSteps
  deriving DecidableEq, Repr

/-- `WR off, v` (R71, R102). -/
def writeAccess (off v : Nat) : HostEvent := .regWrite off 4 (BitVec.ofNat 32 v)

/-- `RD off` (R71, R102). -/
def readAccess (off : Nat) : HostEvent := .regRead off 4

/-- The accesses of a line; none is an assembly error, an operand outside its range (R102, R103). R102 and R103 give `v` of `WR off, v`
and `a` of `SETADDR a` no range; that a value of 2^32 or more is an assembly error there is the model's choice (DESIGN CHOICE, log 14). -/
def HostLine.accesses : HostLine → Option (List HostEvent)
  | .wr off v => if v < 2 ^ 32 then some [writeAccess off v] else none
  | .rd off => some [readAccess off]
  | .nop => some [writeAccess 0x000 0x00000000]
  | .evaluate v len =>
    if v < 16 ∧ len < 65536 then some [writeAccess 0x000 (len <<< 16 ||| v <<< 8 ||| 0x1)] else none
  | .encode => some [writeAccess 0x000 0x00000002]
  | .getModule x y => if x < 32 ∧ y < 32 then some [writeAccess 0x000 (y <<< 16 ||| x <<< 8 ||| 0x3)] else none
  | .assemble => some [writeAccess 0x000 0x00000004]
  | .rsEncode => some [writeAccess 0x000 0x00000005]
  | .place m => if m < 8 then some [writeAccess 0x000 (m <<< 8 ||| 0x6)] else none
  | .score => some [writeAccess 0x000 0x00000007]
  | .select => some [writeAccess 0x000 0x00000008]
  | .formatWord m => if m < 8 then some [writeAccess 0x000 (m <<< 8 ||| 0x9)] else none
  | .setAddr a => if a < 2 ^ 32 then some [writeAccess 0x008 a] else none
  | .clrIll => some [writeAccess 0x004 0x00000010]
  | .ldCw i b => if i < 70 ∧ b < 256 then some [writeAccess (0x200 + 4 * i) b] else none
  | .rdCw i => some [readAccess (0x200 + 4 * i)]
  | .rdRow y => if y < 29 then some [readAccess (0x100 + 4 * y)] else none
  | .rdStat => some [readAccess 0x004]
  | .rdPen m => some [readAccess (0x080 + 4 * m)]
  | .encodeSteps => some [writeAccess 0x000 0x00000004, writeAccess 0x000 0x00000005, writeAccess 0x000 0x00000008]

/-- The accesses of a program, line after line, if no line is an assembly error. -/
def programAccesses : List HostLine → Option (List HostEvent)
  | [] => some []
  | line :: rest =>
    match line.accesses, programAccesses rest with
    | some es, some more => some (es ++ more)
    | _, _ => none

/-- The state with a program as the host's next accesses (log 5). -/
def State.loadProgram (s : State) (lines : List HostLine) : Option State :=
  (programAccesses lines).map fun es => { s with pending := es ++ s.pending }

end Sys2Proof.Machine
end

