-- ==== Sys2Proof/Safety.lean ====
section
/-! DEFINITION. What claims about the block are stated in: the invariant every step keeps (R61), what a command needs in order to
run, and what a safe run is. -/

namespace Sys2Proof.Machine

/-! ### The invariant -/

/-- The context registers are all 0, as reset leaves them, or those of a successful EVALUATE of a version in {1, 2, 3}: CTX_SIZE,
CTX_INLEN and the LP registers are what that version makes them (R39 to R45, R61 b). -/
def Context.consistent (c : Context) : Prop :=
  c = State.reset.ctx ∨
    (1 ≤ c.version.toNat ∧ c.size.toNat = sideOf c.version.toNat ∧ c.inlen.toNat ≤ capacity c.version.toNat ∧
      c.lpTotal.toNat = (layoutOf c.version.toNat).total ∧ c.lpData.toNat = (layoutOf c.version.toNat).data ∧
      c.lpEcc.toNat = (layoutOf c.version.toNat).ecc ∧ c.lpNblk.toNat = (layoutOf c.version.toNat).nblk)

/-- BM holds a complete symbol of the current CTX_SIZE: the grid that the placement engine builds for CTX_VERSION, some stream of
LP_TOTAL codewords and the mask in MASK_SEL (R36 DONE, R46, R61 c). -/
def State.holdsSymbol (s : State) : Prop :=
  1 ≤ s.ctx.version.toNat ∧
    ∃ stream : List Byte, stream.length = s.ctx.lpTotal.toNat ∧
      ∀ x y, x < s.ctx.size.toNat → y < s.ctx.size.toNat →
        s.moduleAt x y = placeGrid s.ctx.version.toNat stream s.maskSel x y

/-- The invariant of the block (R61), with what else every step keeps. -/
structure Inv (s : State) : Prop where
  /-- Host memory is in its canonical form. -/
  memory : s.hostMem.wf
  /-- CONFIG holds a TIER in {0, 1, 2} (R12, R51). -/
  tier : s.config.toNat < 3
  /-- The context registers belong together (R61 b). -/
  context : s.ctx.consistent
  /-- VALID = 1 means that an evaluation has succeeded (R36, R61 b). -/
  valid : s.status.valid = true → 1 ≤ s.ctx.version.toNat
  /-- EVRES and VALID are set and cleared together (R36). -/
  evres : s.status.evres = s.status.valid
  /-- DONE = 1 means that BM holds the symbol (R61 c). -/
  done : s.status.done = true → s.holdsSymbol
  /-- FMT is 0 until it is first written, then always a level-L format word (R47, R193). -/
  format : s.fmt = 0#15 ∨ ∃ m, s.fmt = fmtWord m
  /-- SCORE_TOTAL is the sum of the four terms (R48, R49). -/
  score : s.score.total = s.score.n1 + s.score.n2 + s.score.n3 + s.score.n4

/-! ### What a command needs -/

/-- The host memory admits `input` as the bytes `[CTX_ADDR, CTX_ADDR + CTX_INLEN)`, with no wrap past `2^ADDR_W` (R73). -/
def State.admits (s : State) (input : List Byte) : Prop :=
  input.length = s.ctx.inlen.toNat ∧ s.ctx.addr.toNat + s.ctx.inlen.toNat ≤ 2 ^ Config.addrW ∧
    ∀ i, i < s.ctx.inlen.toNat → s.hostMem.read (s.ctx.addr.toNat + i) = input[i]?

/-- Every codeword below `n` is written (R56). -/
def State.writtenBelow (s : State) (n : Nat) : Prop := ∀ i, i < n → (s.codeword i).isSome = true

/-- The command that the host's next access runs, if it is a write of CMD (R35, R308). -/
def State.nextCommand (s : State) : Option Instr :=
  match s.pending.head? with
  | some (.regWrite 0x000 4 w) => some (decode w)
  | some (.contendedCommand w _) => some (decode w)
  | _ => none

/-! ### Safe runs -/

/-- The outcome with `f` applied to its next state, if it has one. -/
def mapNext (f : State → State) : Result → Result
  | .next s => .next (f s)
  | .fault r => .fault r
  | .refused r => .refused r

/-- A run of `n` steps is safe when it ends in a state: no fault was recorded and no command was stuck (R301, R307). -/
def SafeRun (n : Nat) (s : State) : Prop := ∃ t, Sys2Proof.core.run n s = .next t

end Sys2Proof.Machine
end

