-- ==== Sys2Proof/Certificates/Slice0/Obligations.lean ====
section
/-! DEFINITION. The statements about the block, for the provers. -/

open Sys2Proof Sys2Proof.Machine

/-! ### Encoding -/

/-- Command words written out from the formats R91 to R94 decode to the commands they stand for, and words with a must-be-zero bit
set or a reserved OP do not (spec/95_test_vectors.md section 2.1). -/
def Obligations.DecodeReadsTheSpecsWords : Prop :=
  decode 0x00000000#32 = .nop ∧
  decode 0x00110101#32 = .evaluate 1#4 17#16 ∧
  decode 0xFFFF0F01#32 = .evaluate 15#4 65535#16 ∧
  decode 0x00000002#32 = .encode ∧
  decode 0x001C1C03#32 = .getModule 28#5 28#5 ∧
  decode 0x00000004#32 = .assemble ∧
  decode 0x00000005#32 = .rsEncode ∧
  decode 0x00000706#32 = .place 7#3 ∧
  decode 0x00000007#32 = .score ∧
  decode 0x00000008#32 = .select ∧
  decode 0x00000509#32 = .formatWord 5#3 ∧
  decode 0x0000000A#32 = .illegal 0x0000000A#32 ∧
  decode 0x00000012#32 = .illegal 0x00000012#32 ∧
  decode 0x00001001#32 = .illegal 0x00001001#32 ∧
  decode 0x00002003#32 = .illegal 0x00002003#32 ∧
  decode 0x00200003#32 = .illegal 0x00200003#32 ∧
  decode 0x00000806#32 = .illegal 0x00000806#32

/-- Every well-formed instruction is what its own word decodes to, with every operand at every value its field holds (R91 to R95). -/
def Obligations.EncodedInstructionsDecodeToThemselves : Prop :=
  ∀ i : Instr, WellFormed i → decode (encode i) = i

/-- Every 32-bit word is the word of the instruction it decodes to, and that instruction is well formed (R98: decoding is total). -/
def Obligations.EveryWordIsTheEncodingOfItsDecoding : Prop :=
  ∀ w : Word, WellFormed (decode w) ∧ encode (decode w) = w

/-- R98: a word is ILLEGAL exactly when its OP is reserved or a bit its format fixes at 0 is 1; every other word is the command of its
OP with the operands of its format. -/
def Obligations.WordsDecodeByOpcodeAndFixedBits : Prop :=
  ∀ w : Word,
    (decode w = .illegal w ↔
      (0xA ≤ (w.extractLsb' 0 4).toNat ∨
        ((w.extractLsb' 0 4).toNat ∈ [0x0, 0x2, 0x4, 0x5, 0x7, 0x8] ∧ w.extractLsb' 4 28 ≠ 0#28) ∨
        ((w.extractLsb' 0 4).toNat = 0x1 ∧ (w.extractLsb' 4 4 ≠ 0#4 ∨ w.extractLsb' 12 4 ≠ 0#4)) ∨
        ((w.extractLsb' 0 4).toNat = 0x3 ∧
          (w.extractLsb' 4 4 ≠ 0#4 ∨ w.extractLsb' 13 3 ≠ 0#3 ∨ w.extractLsb' 21 11 ≠ 0#11)) ∨
        ((w.extractLsb' 0 4).toNat ∈ [0x6, 0x9] ∧ (w.extractLsb' 4 4 ≠ 0#4 ∨ w.extractLsb' 11 21 ≠ 0#21)))) ∧
    (decode w ≠ .illegal w →
      decode w =
        match (w.extractLsb' 0 4).toNat with
        | 0x0 => .nop
        | 0x1 => .evaluate (w.extractLsb' 8 4) (w.extractLsb' 16 16)
        | 0x2 => .encode
        | 0x3 => .getModule (w.extractLsb' 8 5) (w.extractLsb' 16 5)
        | 0x4 => .assemble
        | 0x5 => .rsEncode
        | 0x6 => .place (w.extractLsb' 8 3)
        | 0x7 => .score
        | 0x8 => .select
        | 0x9 => .formatWord (w.extractLsb' 8 3)
        | _ => .illegal w)

/-- R97: every row's mask includes bits [3:0], the rows' OP values differ, and so at most one row of the opcode map accepts a word. -/
def Obligations.AtMostOneRowAcceptsAWord : Prop :=
  (∀ r ∈ opTable, r.mask.extractLsb' 0 4 = 0xF#4) ∧
  (opTable.map fun r => r.value.extractLsb' 0 4).Nodup ∧
  ∀ w : Word, (opTable.filter fun r => r.accepts w).length ≤ 1

/-! ### The step -/

/-- R35: a host write of `w` to CMD executes the command that `w` decodes to, in the state with that access taken off the host's
list; a host read of CMD returns 0. -/
def Obligations.StepRunsTheCommandWritten : Prop :=
  (∀ (s : State) (w : Word) (rest : List HostEvent), s.pending = .regWrite 0x000 4 w :: rest →
    step s = exec (decode w) { s with pending := rest }) ∧
  (∀ (s : State) (rest : List HostEvent), s.pending = .regRead 0x000 4 :: rest →
    ∃ t, step s = .next t ∧ t.readLog = 0#32 :: s.readLog)

/-- A word placed by `withFetchWord` is decoded and run by the very next step, in the state it was placed into (log 5). -/
def Obligations.PlacedWordRunsItsInstruction : Prop :=
  ∀ (s : State) (nbits w : Nat) (i : Instr), decodeTableWord nbits w = some i →
    step (s.withFetchWord nbits w) = exec i s

/-- The block waits for a host access (R332): with none pending, a step leaves the state as it is (the model's choice, log 5). -/
def Obligations.WaitingStepKeepsTheState : Prop :=
  ∀ s : State, s.pending = [] → step s = .next s

/-- A line of a host program with operands in its range is one write of CMD whose word decodes to the line's command; an operand
outside the range is an assembly error (R102). ENCODE_STEPS is the three step commands in turn (R103). -/
def Obligations.HostLinesWriteTheirCommandWords : Prop :=
  (∀ v len : Nat,
    (v < 16 → len < 65536 → ∃ w, (HostLine.evaluate v len).accesses = some [.regWrite 0x000 4 w] ∧
      decode w = .evaluate (BitVec.ofNat 4 v) (BitVec.ofNat 16 len)) ∧
    (16 ≤ v ∨ 65536 ≤ len → (HostLine.evaluate v len).accesses = none)) ∧
  (∀ x y : Nat,
    (x < 32 → y < 32 → ∃ w, (HostLine.getModule x y).accesses = some [.regWrite 0x000 4 w] ∧
      decode w = .getModule (BitVec.ofNat 5 x) (BitVec.ofNat 5 y)) ∧
    (32 ≤ x ∨ 32 ≤ y → (HostLine.getModule x y).accesses = none)) ∧
  (∀ m : Nat,
    (m < 8 →
      (∃ w, (HostLine.place m).accesses = some [.regWrite 0x000 4 w] ∧ decode w = .place (BitVec.ofNat 3 m)) ∧
      ∃ w, (HostLine.formatWord m).accesses = some [.regWrite 0x000 4 w] ∧ decode w = .formatWord (BitVec.ofNat 3 m)) ∧
    (8 ≤ m → (HostLine.place m).accesses = none ∧ (HostLine.formatWord m).accesses = none)) ∧
  (∀ line i, (line, i) ∈
      [(HostLine.nop, Instr.nop), (.encode, .encode), (.assemble, .assemble), (.rsEncode, .rsEncode), (.score, .score),
        (.select, .select)] →
    ∃ w, line.accesses = some [.regWrite 0x000 4 w] ∧ decode w = i) ∧
  programAccesses [.encodeSteps] = programAccesses [.assemble, .rsEncode, .select]

/-! ### Reset -/

/-- R63: after reset every register and storage entry holds the value of the table: 0 everywhere, TIER in CONFIG, BM unspecified (every
row word the host reads is a free value) and every codeword unwritten. -/
def Obligations.ResetGivesTheTableValues : Prop :=
  State.reset.status = ⟨false, false, false, false, false⟩ ∧
  State.reset.dataAddr = 0#32 ∧
  State.reset.ctx.addr = 0#32 ∧ State.reset.ctx.version = 0#2 ∧ State.reset.ctx.size = 0#5 ∧ State.reset.ctx.inlen = 0#6 ∧
  State.reset.ctx.lpTotal = 0#7 ∧ State.reset.ctx.lpData = 0#6 ∧ State.reset.ctx.lpEcc = 0#4 ∧ State.reset.ctx.lpNblk = 0#2 ∧
  State.reset.maskSel = 0#3 ∧ State.reset.fmt = 0#15 ∧
  State.reset.score = ⟨0#16, 0#16, 0#16, 0#16, 0#16⟩ ∧
  (∀ m : Fin 8, State.reset.pen[m] = 0#16) ∧
  State.reset.config = BitVec.ofNat 2 Config.tier.val ∧
  (∀ y : Fin 29, State.reset.bitmapWord y.val = Config.freeRow State.reset.bitmap.draw y.val) ∧
  (∀ i : Fin 70, State.reset.codeword i.val = none)

/-- R330: reset puts every register and storage entry in the state of R63 and does nothing else: host memory, the rest of the host's
accesses, what the host has read and TIER are as before. -/
def Obligations.ResetEventRestoresTheTableValues : Prop :=
  ∀ (s : State) (rest : List HostEvent), s.pending = .reset :: rest →
    ∃ t, step s = .next t ∧
      t.status = State.reset.status ∧ t.dataAddr = State.reset.dataAddr ∧ t.ctx = State.reset.ctx ∧
      t.maskSel = State.reset.maskSel ∧ t.fmt = State.reset.fmt ∧ t.score = State.reset.score ∧ t.pen = State.reset.pen ∧
      t.config = s.config ∧
      (∀ y : Fin 29, t.bitmapWord y.val = Config.freeRow t.bitmap.draw y.val) ∧
      (∀ i : Fin 70, t.codeword i.val = none) ∧
      t.hostMem = s.hostMem ∧ t.pending = rest ∧ t.readLog = s.readLog

/-- R331: after reset VALID = 0 and DONE = 0; in every such state only EVALUATE, FORMAT_WORD, NOP and illegal words complete, the
commands that need a context raise EncodeUnevaluated and those that need a symbol raise BitmapNotReady, with their own words. -/
def Obligations.CommandsWithoutContextOrSymbol : Prop :=
  State.reset.status.valid = false ∧ State.reset.status.done = false ∧
  ∀ (s : State) (i : Instr), s.status.valid = false → s.status.done = false →
    match i with
    | .nop | .evaluate _ _ | .formatWord _ | .illegal _ => ∃ t, exec i s = .next t
    | .encode | .assemble | .rsEncode | .place _ | .select => exec i s = .fault (.encodeUnevaluated (encode i))
    | .getModule _ _ | .score => exec i s = .fault (.bitmapNotReady (encode i))

/-! ### EVALUATE and ASSEMBLE -/

/-- R115 and R116: EVALUATE of a version in {1, 2, 3} with a length of at most its capacity replaces the whole context, sets VALID and
EVRES and clears DONE; every other EVALUATE clears VALID and EVRES; and neither changes anything else. -/
def Obligations.EvaluateReplacesOrInvalidatesTheContext : Prop :=
  ∀ (ver : BitVec 4) (len : BitVec 16) (s : State),
    (∀ v cap total data ecc : Nat,
      (v, cap, total, data, ecc) ∈ [(1, 17, 26, 19, 7), (2, 32, 44, 34, 10), (3, 53, 70, 55, 15)] →
      ver.toNat = v → len.toNat ≤ cap →
      ∃ t, exec (.evaluate ver len) s = .next t ∧
        t = { s with ctx := t.ctx, status := { s.status with valid := true, evres := true, done := false } } ∧
        t.ctx.addr = s.dataAddr ∧ t.ctx.version.toNat = v ∧ t.ctx.size.toNat = 4 * v + 17 ∧
        t.ctx.inlen.toNat = len.toNat ∧ t.ctx.lpTotal.toNat = total ∧ t.ctx.lpData.toNat = data ∧
        t.ctx.lpEcc.toNat = ecc ∧ t.ctx.lpNblk.toNat = 1) ∧
    ((ver.toNat ∉ [1, 2, 3] ∨ (ver.toNat = 1 ∧ 17 < len.toNat) ∨ (ver.toNat = 2 ∧ 32 < len.toNat) ∨
        (ver.toNat = 3 ∧ 53 < len.toNat)) →
      exec (.evaluate ver len) s = .next { s with status := { s.status with valid := false, evres := false } })

/-- R124: with a valid context and the `L` input bytes admitted, ASSEMBLE completes and `CW[0..D-1]` hold the closed form over
`u[0] = L`, `u[j] = b[j-1]`; `CW[D..69]` and everything else are unchanged. -/
def Obligations.AssembleWritesTheClosedForm : Prop :=
  ∀ (s : State) (b : List Byte), Inv s → s.status.valid = true → s.admits b →
    ∃ t, exec .assemble s = .next t ∧ t = { s with cw := t.cw } ∧
      (let L := s.ctx.inlen.toNat
       let D := s.ctx.lpData.toNat
       let u : Nat → Byte := fun j => if j = 0 then BitVec.ofNat 8 L else b.getD (j - 1) 0#8
       t.codeword 0 = some (0x40#8 ||| u 0 >>> 4) ∧
       (∀ j, 1 ≤ j → j ≤ L → t.codeword j = some ((u (j - 1) &&& 0x0F#8) <<< 4 ||| u j >>> 4)) ∧
       t.codeword (L + 1) = some ((u L &&& 0x0F#8) <<< 4) ∧
       (∀ j, j < D - L - 2 → t.codeword (L + 2 + j) = some (if j % 2 = 0 then 0xEC#8 else 0x11#8)) ∧
       (∀ i, D ≤ i → t.codeword i = s.codeword i))

/-- With a valid context ASSEMBLE has a step exactly when the range does not wrap past `2^ADDR_W` and host memory admits every byte of it
(R73). That a stuck command names the first address, in increasing order, that is not admitted, and that a range past the top of the
space is stuck at `2^ADDR_W` after the bytes below it, are the model's reading of R307 and R309 (log 4). -/
def Obligations.AssembleRunsExactlyWhenItsInputIsAdmitted : Prop :=
  ∀ s : State, s.status.valid = true →
    ((∃ t, exec .assemble s = .next t) ↔
      s.ctx.addr.toNat + s.ctx.inlen.toNat ≤ 2 ^ 32 ∧
        ∀ i, i < s.ctx.inlen.toNat → (s.hostMem.read (s.ctx.addr.toNat + i)).isSome = true) ∧
    (∀ i, i < s.ctx.inlen.toNat →
      (2 ^ 32 ≤ s.ctx.addr.toNat + i ∨ s.hostMem.read (s.ctx.addr.toNat + i) = none) →
      (∀ j, j < i → s.ctx.addr.toNat + j < 2 ^ 32 ∧ (s.hostMem.read (s.ctx.addr.toNat + j)).isSome = true) →
      exec .assemble s = .refused (.hostReadRefused (s.ctx.addr.toNat + i)))

/-! ### The Reed–Solomon encoder -/

/-- R155: RS_ENCODE with a valid context and its data codewords written completes; `CW[D..D+n-1]` become the remainder, and every other
codeword, BM, DONE and every register are unchanged. Without a context, or with a data codeword unwritten, it faults. -/
def Obligations.RsEncodeWritesTheRemainder : Prop :=
  (∀ s : State, Inv s → s.status.valid = true → s.writtenBelow s.ctx.lpData.toNat →
    ∃ t, exec .rsEncode s = .next t ∧ t = { s with cw := t.cw } ∧
      (let D := s.ctx.lpData.toNat
       let n := s.ctx.lpEcc.toNat
       (∀ j, j < n → t.codeword (D + j) = (rsRemainder (s.codewords D) n)[j]? ∧ (t.codeword (D + j)).isSome = true) ∧
       (∀ i, (i < D ∨ D + n ≤ i) → t.codeword i = s.codeword i))) ∧
  (∀ s : State, s.status.valid = false → exec .rsEncode s = .fault (.encodeUnevaluated 0x00000005#32)) ∧
  (∀ (s : State) (i : Nat), s.status.valid = true → i < s.ctx.lpData.toNat → s.codeword i = none → s.writtenBelow i →
    exec .rsEncode s = .fault (.codewordUnwritten 0x00000005#32 i))

/-- The least unwritten codeword among those the command reads is the one CodewordUnwritten records, after EncodeUnevaluated has been
ruled out (R303, R309). -/
def Obligations.UnwrittenCodewordFaultsWithTheLeastIndex : Prop :=
  ∀ (s : State) (i : Nat), s.status.valid = true → i < s.ctx.lpTotal.toNat → s.codeword i = none → s.writtenBelow i →
    exec .select s = .fault (.codewordUnwritten 0x00000008#32 i) ∧
    ∀ m : BitVec 3, exec (.place m) s = .fault (.codewordUnwritten (encode (.place m)) i)

/-- For the block's correction counts, the data followed by its remainder has the value 0 at `α^i`, a root of the generator, for every
`i < n` (R151, the part on `C(α^i)`). -/
def Obligations.BlockVanishesAtTheGeneratorsRoots : Prop :=
  ∀ (d : List Byte) (n : Nat), n ∈ [7, 10, 15] → ∀ i, i < n → polyValue (d ++ rsRemainder d n) (gfExp i) = 0#8

/-- R151, second part: the remainder is linear over exclusive-or, and that of zeros is zeros. -/
def Obligations.RemainderIsLinear : Prop :=
  (∀ (d e : List Byte) (n : Nat), d.length = e.length →
    rsRemainder (List.zipWith (· ^^^ ·) d e) n = List.zipWith (· ^^^ ·) (rsRemainder d n) (rsRemainder e n)) ∧
  (∀ k n : Nat, rsRemainder (List.replicate k 0#8) n = List.replicate n 0#8)

/-- R144: for every pair of bytes the product is 0 when one is 0, and otherwise `EXP[LOG[a] + LOG[b]]`. -/
def Obligations.LogTablesGiveTheProduct : Prop :=
  ∀ a b : Byte,
    ((a = 0#8 ∨ b = 0#8) → gfMul a b = 0#8) ∧
    (a ≠ 0#8 → b ≠ 0#8 → ∃ i j, gfLog a = some i ∧ gfLog b = some j ∧ gfMul a b = gfExp (i + j)) ∧
    gfMul a b = gfMulByLog a b

/-- R142: EXP is the table of powers of `α = 0x02` with period 255, and `LOG[v]` for `v ≠ 0` is the unique `i` in 0..254 with
`EXP[i] = v`. -/
def Obligations.ExpAndLogAreThePowersOfAlpha : Prop :=
  gfExp 0 = 0x01#8 ∧
  (∀ i, i < 254 →
    gfExp (i + 1) =
      ((gfExp i).setWidth 9 <<< 1 ^^^ (if (gfExp i).getLsbD 7 then 0x11D#9 else 0#9)).setWidth 8) ∧
  (∀ i, gfExp i = gfExp (i % 255)) ∧
  (∀ v : Byte, v ≠ 0#8 → ∃ i, i < 255 ∧ gfLog v = some i ∧ gfExp i = v ∧ ∀ j, j < 255 → gfExp j = v → j = i)

/-- R149: the generator polynomials of the block, as coefficients and as exponents. -/
def Obligations.GeneratorsAreTheListedOnes : Prop :=
  generator 7 = [0x01, 0x7F, 0x7A, 0x9A, 0xA4, 0x0B, 0x44, 0x75] ∧
  generator 10 = [0x01, 0xD8, 0xC2, 0x9F, 0x6F, 0xC7, 0x5E, 0x5F, 0x71, 0x9D, 0xC1] ∧
  generator 15 = [0x01, 0x1D, 0xC4, 0x6F, 0xA3, 0x70, 0x4A, 0x0A, 0x69, 0x69, 0x8B, 0x84, 0x97, 0x20, 0x86, 0x1A] ∧
  (generator 7).map gfLog = [0, 87, 229, 146, 149, 238, 102, 21].map some ∧
  (generator 10).map gfLog = [0, 251, 67, 46, 61, 118, 70, 64, 94, 32, 45].map some ∧
  (generator 15).map gfLog = [0, 8, 183, 61, 91, 202, 37, 51, 58, 58, 237, 140, 124, 5, 99, 105].map some

/-- With one block the interleaved stream is the data followed by its remainder (R153, R154). -/
def Obligations.OneBlockStreamIsDataThenRemainder : Prop :=
  ∀ (d : List Byte) (n : Nat), blockStream [d] n = d ++ rsRemainder d n

/-! ### Format information -/

/-- R206 with the words of R193: FORMAT_WORD completes in every state, writes the level-L format word of its mask to FMT and changes
nothing else; the eight words are distinct. -/
def Obligations.FormatWordWritesTheTableWord : Prop :=
  (∀ (m : BitVec 3) (s : State),
    exec (.formatWord m) s =
      .next { s with
        fmt := [0x77C4#15, 0x72F3#15, 0x7DAA#15, 0x789D#15, 0x662F#15, 0x6318#15, 0x6C41#15, 0x6976#15].getD m.toNat 0#15 }) ∧
  (∀ m m' : BitVec 3, fmtWord m = fmtWord m' → m = m')

/-- Without the pattern 0x5412, a format word holds `{01, M}` in bits [14:10] and leaves no remainder on division by 0x537 (R190 to
R192). -/
def Obligations.FormatWordIsACodewordOfTheShortCode : Prop :=
  ∀ m : BitVec 3,
    (fmtWord m ^^^ 0x5412#15).extractLsb' 10 5 = 0b01#2 ++ m ∧
    [14, 13, 12, 11, 10].foldl bchStep (fmtWord m ^^^ 0x5412#15) = 0#15

/-! ### Placement -/

/-- R189: the counts of reserved and data modules of each version, the fixed patterns' own counts, and that no two of them overlap;
the data modules hold the stream and 0, 7 and 7 remainder bits. -/
def Obligations.ReservedAndDataModuleCounts : Prop :=
  ∀ v timing align res data total rem : Nat,
    (v, timing, align, res, data, total, rem) ∈
      [(1, 10, 0, 233, 208, 26, 0), (2, 18, 25, 266, 359, 44, 7), (3, 26, 25, 274, 567, 70, 7)] →
    (let n := 4 * v + 17
     let count : (Nat → Nat → Bool) → Nat := fun p => ((List.range n).map fun y => (List.range n).countP fun x => p x y).sum
     count (fun x y => isFinder n x y || isSeparator n x y) = 192 ∧
     count (fun x y => isTiming n x y) = timing ∧
     count (fun x y => (formatBit n x y).isSome || isDarkModule n x y) = 31 ∧
     count (fun x y => isAlignment v x y) = align ∧
     count (fun x y => reserved v x y) = res ∧
     count (fun x y => !reserved v x y) = data ∧
     (layoutOf v).total = total ∧ data = 8 * total + rem ∧
     ∀ x y, x < n → y < n →
       [isFinder n x y, isSeparator n x y, isTiming n x y, isDarkModule n x y, isAlignment v x y,
         (formatBit n x y).isSome].countP id ≤ 1)

/-- R197: the zig-zag order holds each data module of the symbol exactly once and no other module, and it is the order of the rule. The
column pairs are numbered from the right edge, with column 6 in no pair; a module comes before another when its pair has the lower
number, or in one pair when its row comes first (from the bottom up in the even pairs, the first among them, and from the top down in
the odd ones), or in one row of a pair when it is in the right column. -/
def Obligations.ZigzagVisitsEachDataModuleOnce : Prop :=
  ∀ v, 1 ≤ v → v ≤ 3 →
    (zigzag v).Nodup ∧
    (∀ x y, (x, y) ∈ zigzag v ↔ x < 4 * v + 17 ∧ y < 4 * v + 17 ∧ reserved v x y = false) ∧
    (∀ x y, (x, y) ∈ zigzag v → x ≠ 6) ∧
    (let pair : Nat → Nat := fun x => if 6 < x then (4 * v + 16 - x) / 2 else (4 * v + 15 - x) / 2
     (zigzag v).Pairwise fun p q =>
       pair p.1 < pair q.1 ∨
         (pair p.1 = pair q.1 ∧
           ((if pair p.1 % 2 = 0 then q.2 < p.2 else p.2 < q.2) ∨ (p.2 = q.2 ∧ p.1 = q.1 + 1))))

/-- R198 and R199: in the complete grid, data module `order[i]` holds stream bit `i`, most significant bit of codeword 0 first, or 0
for a remainder bit, inverted where the mask says so; there are 0, 7 and 7 remainder bits. -/
def Obligations.DataModulesCarryTheMaskedStream : Prop :=
  ∀ v rem : Nat, (v, rem) ∈ [(1, 0), (2, 7), (3, 7)] →
    ∀ (S : List Byte) (m : BitVec 3), S.length = (layoutOf v).total →
      (zigzag v).length = 8 * S.length + rem ∧
      ∀ i x y, (zigzag v)[i]? = some (x, y) →
        placeGrid v S m x y =
          ((if i < 8 * S.length then (S.getD (i / 8) 0#8).getLsbD (7 - i % 8) else false) ^^ maskFn m x y)

/-- R204 with R182 to R186: whatever the stream and the mask, the finder patterns, separators, timing patterns, dark module and
alignment pattern hold their fixed values, and all of their modules are reserved. -/
def Obligations.FunctionPatternsAreFixed : Prop :=
  ∀ v, 1 ≤ v → v ≤ 3 → ∀ (S : List Byte) (m : BitVec 3),
    (let n := 4 * v + 17
     let holds : Nat → Nat → Bool → Prop := fun x y dark => reserved v x y = true ∧ placeGrid v S m x y = dark
     (∀ x0 y0, (x0, y0) ∈ [(0, 0), (n - 7, 0), (0, n - 7)] → ∀ i j, i < 7 → j < 7 →
       holds (x0 + i) (y0 + j) (max (max (i - 3) (3 - i)) (max (j - 3) (3 - j)) != 2)) ∧
     (∀ k, k < 8 →
       holds 7 k false ∧ holds k 7 false ∧ holds (n - 8) k false ∧ holds (n - 8 + k) 7 false ∧
       holds 7 (n - 8 + k) false ∧ holds k (n - 8) false) ∧
     (∀ k, 8 ≤ k → k ≤ n - 9 → holds k 6 (k % 2 == 0) ∧ holds 6 k (k % 2 == 0)) ∧
     holds 8 (n - 8) true ∧
     (2 ≤ v → ∀ i j, i < 5 → j < 5 →
       holds (n - 9 + i) (n - 9 + j) (max (max (i - 2) (2 - i)) (max (j - 2) (2 - j)) != 1)) ∧
     (v = 1 → ∀ x y, isAlignment v x y = false))

/-- R207 with R194 and R195: both format copies of the complete grid hold the format word of the grid's mask, bit `i` at `A(i)` and at
`B(i)`, and bits [12:10] of that word after XOR with 0x5412 are the mask. -/
def Obligations.FormatCopiesHoldTheMasksWord : Prop :=
  ∀ v, 1 ≤ v → v ≤ 3 → ∀ (S : List Byte) (m : BitVec 3),
    (∀ i x y, [(8, 0), (8, 1), (8, 2), (8, 3), (8, 4), (8, 5), (8, 7), (8, 8), (7, 8), (5, 8), (4, 8), (3, 8), (2, 8), (1, 8),
        (0, 8)][i]? = some (x, y) → placeGrid v S m x y = (fmtWord m).getLsbD i) ∧
    (∀ i, i < 8 → placeGrid v S m (4 * v + 17 - 1 - i) 8 = (fmtWord m).getLsbD i) ∧
    (∀ i, 8 ≤ i → i < 15 → placeGrid v S m 8 (4 * v + 17 - 15 + i) = (fmtWord m).getLsbD i) ∧
    (fmtWord m ^^^ 0x5412#15).extractLsb' 10 3 = m

/-- R200: the eight mask functions. -/
def Obligations.MaskFunctionsAreTheTable : Prop :=
  ∀ x y : Nat,
    (maskFn 0#3 x y = true ↔ (x + y) % 2 = 0) ∧
    (maskFn 1#3 x y = true ↔ y % 2 = 0) ∧
    (maskFn 2#3 x y = true ↔ x % 3 = 0) ∧
    (maskFn 3#3 x y = true ↔ (x + y) % 3 = 0) ∧
    (maskFn 4#3 x y = true ↔ (y / 2 + x / 3) % 2 = 0) ∧
    (maskFn 5#3 x y = true ↔ x * y % 2 + x * y % 3 = 0) ∧
    (maskFn 6#3 x y = true ↔ (x * y % 2 + x * y % 3) % 2 = 0) ∧
    (maskFn 7#3 x y = true ↔ ((x + y) % 2 + x * y % 3) % 2 = 0)

/-- R205 with R203: PLACE with a valid context and its stream written completes; BM holds the grid of CTX_VERSION, the stream and the
mask, module (x, y) at bit 31 - x of row y, and a free value at every other bit; MASK_SEL, FMT and DONE are set and nothing else
changes. Without a context, or with a codeword unwritten, it faults. -/
def Obligations.PlaceWritesTheSymbol : Prop :=
  (∀ (m : BitVec 3) (s : State), Inv s → s.status.valid = true → s.writtenBelow s.ctx.lpTotal.toNat →
    ∃ t, exec (.place m) s = .next t ∧
      (∀ x y, x < 32 → y < 29 →
        (t.bitmapWord y).getLsbD (31 - x) =
          if x < 4 * s.ctx.version.toNat + 17 ∧ y < 4 * s.ctx.version.toNat + 17 then
            placeGrid s.ctx.version.toNat (s.codewords s.ctx.lpTotal.toNat) m x y
          else (Config.freeRow t.bitmap.draw y).getLsbD (31 - x)) ∧
      t.maskSel = m ∧ t.fmt = fmtWord m ∧ t.status = { s.status with done := true } ∧
      t = { s with
        bitmap := t.bitmap, draws := t.draws, maskSel := t.maskSel, fmt := t.fmt, status := t.status }) ∧
  (∀ (m : BitVec 3) (s : State), s.status.valid = false →
    exec (.place m) s = .fault (.encodeUnevaluated (encode (.place m)))) ∧
  (∀ (m : BitVec 3) (s : State) (i : Nat), s.status.valid = true → i < s.ctx.lpTotal.toNat → s.codeword i = none →
    s.writtenBelow i → exec (.place m) s = .fault (.codewordUnwritten (encode (.place m)) i))

/-! ### Penalties -/

/-- R232: N1 of a line adds, for each maximal run of equal modules, its length less 2 when that length is 5 or more and nothing
otherwise; N1 of a grid is the sum over its rows and its columns. -/
def Obligations.RunPenaltySumsTheMaximalRuns : Prop :=
  lineRuns [] = 0 ∧
  (∀ (b : Bool) (k : Nat) (rest : List Bool), 1 ≤ k → rest.head? ≠ some b →
    lineRuns (List.replicate k b ++ rest) = (if 5 ≤ k then k - 2 else 0) + lineRuns rest) ∧
  (∀ (n : Nat) (g : Grid),
    penaltyN1 n g =
      ∑ y ∈ Finset.range n, lineRuns ((List.range n).map fun x => g x y) +
      ∑ x ∈ Finset.range n, lineRuns ((List.range n).map fun y => g x y))

/-- R233: N2 is 3 for every 2×2 block of one colour, overlapping blocks all counted. -/
def Obligations.BlockPenaltyCountsEveryBlock : Prop :=
  ∀ (n : Nat) (g : Grid),
    penaltyN2 n g =
      3 * ((Finset.range (n - 1) ×ˢ Finset.range (n - 1)).filter fun p =>
        g p.1 p.2 = g (p.1 + 1) p.2 ∧ g p.1 p.2 = g p.1 (p.2 + 1) ∧ g p.1 p.2 = g (p.1 + 1) (p.2 + 1)).card

/-- R234: N3 is 40 for every window of 11 modules inside a row or a column that equals one of the two finder-like patterns. -/
def Obligations.WindowPenaltyCountsFinderPatterns : Prop :=
  ∀ (n : Nat) (g : Grid),
    (let like : (Nat → Bool) → Prop := fun w =>
       (List.range 11).map w = [true, false, true, true, true, false, true, false, false, false, false] ∨
       (List.range 11).map w = [false, false, false, false, true, false, true, true, true, false, true]
     penaltyN3 n g =
       40 * (Nat.card { p : Nat × Nat // p.1 + 11 ≤ n ∧ p.2 < n ∧ like fun k => g (p.1 + k) p.2 } +
         Nat.card { p : Nat × Nat // p.1 < n ∧ p.2 + 11 ≤ n ∧ like fun k => g p.1 (p.2 + k) }))

/-- R235: N4 is ten times `|20·dark − 10·T| div T` with `T = N²` and `dark` the number of dark modules. -/
def Obligations.BalancePenaltyIsExact : Prop :=
  ∀ (n : Nat) (g : Grid),
    (penaltyN4 n g : Int) =
      10 * (|20 * (((Finset.range n ×ˢ Finset.range n).filter fun p => g p.1 p.2 = true).card : Int) - 10 * (n : Int) ^ 2| /
        (n : Int) ^ 2)

/-- R237: the ranges of the four terms for `N ≤ 29` and of their total, that the 16 bits of every score register hold its value exactly,
and when N4 is 100. -/
def Obligations.PenaltyTermsStayInRange : Prop :=
  ∀ (n : Nat) (g : Grid), 1 ≤ n → n ≤ 29 →
    penaltyN1 n g ≤ 2 * n * (n - 2) ∧ 2 * n * (n - 2) ≤ 1566 ∧
    penaltyN2 n g ≤ 3 * (n - 1) ^ 2 ∧ 3 * (n - 1) ^ 2 ≤ 2352 ∧
    penaltyN3 n g ≤ 40 * (2 * n) * (n - 10) ∧ 40 * (2 * n) * (n - 10) ≤ 44080 ∧
    penaltyN4 n g ≤ 100 ∧
    penaltyTotal (penaltyOf n g) < 48099 ∧
    (let score := scoreOf (penaltyOf n g)
     score.n1.toNat = penaltyN1 n g ∧ score.n2.toNat = penaltyN2 n g ∧ score.n3.toNat = penaltyN3 n g ∧
     score.n4.toNat = penaltyN4 n g ∧ score.total.toNat = penaltyTotal (penaltyOf n g)) ∧
    (penaltyN4 n g = 100 ↔ ∃ c : Bool, ∀ x y, x < n → y < n → g x y = c)

/-! ### SCORE and SELECT -/

/-- R240: SCORE with DONE = 1 completes; the SCORE registers hold the penalty terms, and their sum, of the `CTX_SIZE × CTX_SIZE`
modules in BM, and nothing else changes. With DONE = 0 it faults. -/
def Obligations.ScoreWritesThePenaltyOfTheBitmap : Prop :=
  (∀ s : State, Inv s → s.status.done = true →
    ∃ t, exec .score s = .next t ∧ t = { s with score := t.score } ∧
      (let n := s.ctx.size.toNat
       let g : Grid := fun x y => (s.bitmapWord y).getLsbD (31 - x)
       t.score.n1.toNat = penaltyN1 n g ∧ t.score.n2.toNat = penaltyN2 n g ∧
       t.score.n3.toNat = penaltyN3 n g ∧ t.score.n4.toNat = penaltyN4 n g ∧
       t.score.total.toNat = penaltyN1 n g + penaltyN2 n g + penaltyN3 n g + penaltyN4 n g)) ∧
  (∀ s : State, s.status.done = false → exec .score s = .fault (.bitmapNotReady 0x00000007#32))

/-- After `PLACE m`, SCORE reports the total that SELECT, on the same state, reports for candidate `m`, and the same terms when `m`
wins (R240, corner cases). -/
def Obligations.ScoreAfterPlaceIsSelectsPenalty : Prop :=
  ∀ (s t u r : State) (m : BitVec 3), Inv s →
    exec (.place m) s = .next t → exec .score t = .next u → exec .select s = .next r →
    r.pen[m.toNat]? = some u.score.total ∧ (r.maskSel = m → r.score = u.score)

/-- R246: after SELECT the winner's total is at most every candidate's, and strictly below that of every lower index. -/
def Obligations.SelectKeepsTheFirstMinimum : Prop :=
  ∀ s t : State, Inv s → exec .select s = .next t →
    ∀ m : Fin 8,
      (t.pen[t.maskSel.toNat]'t.maskSel.isLt).toNat ≤ t.pen[m].toNat ∧
      (m.val < t.maskSel.toNat → (t.pen[t.maskSel.toNat]'t.maskSel.isLt).toNat < t.pen[m].toNat)

/-- R245: SELECT with a valid context and its stream written completes: PEN holds the eight candidates' full totals, the winner is the
least mask of least total, BM holds its grid, FMT its format word and the SCORE registers its terms; DONE is set and nothing else
changes. Without a context, or with a codeword unwritten, it faults. -/
def Obligations.SelectCommitsTheWinner : Prop :=
  (∀ s : State, Inv s → s.status.valid = true → s.writtenBelow s.ctx.lpTotal.toNat →
    ∃ t, exec .select s = .next t ∧
      (let v := s.ctx.version.toNat
       let n := 4 * v + 17
       let grid : Nat → Grid := fun m => placeGrid v (s.codewords s.ctx.lpTotal.toNat) (BitVec.ofNat 3 m)
       let total : Nat → Nat := fun m =>
         penaltyN1 n (grid m) + penaltyN2 n (grid m) + penaltyN3 n (grid m) + penaltyN4 n (grid m)
       (∀ m : Fin 8, t.pen[m].toNat = total m.val) ∧
       (∀ m, m < 8 → total t.maskSel.toNat ≤ total m ∧ (m < t.maskSel.toNat → total t.maskSel.toNat < total m)) ∧
       (∀ x y, x < 32 → y < 29 →
         (t.bitmapWord y).getLsbD (31 - x) =
           if x < n ∧ y < n then grid t.maskSel.toNat x y else (Config.freeRow t.bitmap.draw y).getLsbD (31 - x)) ∧
       t.fmt = fmtWord t.maskSel ∧
       t.score.n1.toNat = penaltyN1 n (grid t.maskSel.toNat) ∧ t.score.n2.toNat = penaltyN2 n (grid t.maskSel.toNat) ∧
       t.score.n3.toNat = penaltyN3 n (grid t.maskSel.toNat) ∧ t.score.n4.toNat = penaltyN4 n (grid t.maskSel.toNat) ∧
       t.score.total.toNat = total t.maskSel.toNat ∧
       t.status = { s.status with done := true } ∧
       t = { s with
         bitmap := t.bitmap, draws := t.draws, maskSel := t.maskSel, fmt := t.fmt, score := t.score, pen := t.pen,
         status := t.status })) ∧
  (∀ s : State, s.status.valid = false → exec .select s = .fault (.encodeUnevaluated 0x00000008#32)) ∧
  (∀ (s : State) (i : Nat), s.status.valid = true → i < s.ctx.lpTotal.toNat → s.codeword i = none → s.writtenBelow i →
    exec .select s = .fault (.codewordUnwritten 0x00000008#32 i))

/-- The symbol, MASK_SEL and FMT that SELECT leaves are those that PLACE with the winning mask leaves on the same state (R245, corner
cases). -/
def Obligations.SelectsSymbolIsPlacesSymbol : Prop :=
  ∀ s t : State, exec .select s = .next t →
    ∃ u, exec (.place t.maskSel) s = .next u ∧ u.maskSel = t.maskSel ∧ u.fmt = t.fmt ∧
      ∀ x y, x < 4 * s.ctx.version.toNat + 17 → y < 4 * s.ctx.version.toNat + 17 →
        (u.bitmapWord y).getLsbD (31 - x) = (t.bitmapWord y).getLsbD (31 - x)

/-! ### ENCODE -/

/-- ENCODE answers a next state exactly when ASSEMBLE, RS_ENCODE and SELECT, issued in turn, do, and it is the same one (R251). -/
def Obligations.EncodeIsTheThreeCommands : Prop :=
  ∀ s t : State,
    exec .encode s = .next t ↔
      ∃ a b, exec .assemble s = .next a ∧ exec .rsEncode a = .next b ∧ exec .select b = .next t

/-- Two ENCODEs on equal contexts with equal input bytes leave equal codewords, PEN, MASK_SEL, FMT, SCORE registers and module bits
of BM, whatever else differed between the two states (R251). -/
def Obligations.EncodeDependsOnContextAndInputOnly : Prop :=
  ∀ (s s' t t' : State) (b : List Byte), Inv s → Inv s' → s.ctx = s'.ctx → s.admits b → s'.admits b →
    exec .encode s = .next t → exec .encode s' = .next t' →
    (∀ i, i < s.ctx.lpTotal.toNat → t.codeword i = t'.codeword i) ∧
    t.pen = t'.pen ∧ t.maskSel = t'.maskSel ∧ t.fmt = t'.fmt ∧ t.score = t'.score ∧
    ∀ x y, x < s.ctx.size.toNat → y < s.ctx.size.toNat →
      (t.bitmapWord y).getLsbD (31 - x) = (t'.bitmapWord y).getLsbD (31 - x)

/-- R250: ENCODE with a valid context and its input admitted completes, as its three steps do, with no CodewordUnwritten; CW[0..LP_TOTAL-1],
the symbol and its registers are written, DONE is set and nothing else changes. Without a context it faults, and with a byte not
admitted it is stuck. -/
def Obligations.EncodeCompletesOnAValidContext : Prop :=
  (∀ (s : State) (input : List Byte), Inv s → s.status.valid = true → s.admits input →
    ∃ a b t, exec .assemble s = .next a ∧ exec .rsEncode a = .next b ∧ exec .select b = .next t ∧ exec .encode s = .next t ∧
      t.status = { s.status with done := true } ∧ t.writtenBelow s.ctx.lpTotal.toNat ∧
      (∀ i, s.ctx.lpTotal.toNat ≤ i → t.codeword i = s.codeword i) ∧
      t = { s with
        cw := t.cw, bitmap := t.bitmap, draws := t.draws, maskSel := t.maskSel, fmt := t.fmt, score := t.score,
        pen := t.pen, status := t.status }) ∧
  (∀ s : State, s.status.valid = false → exec .encode s = .fault (.encodeUnevaluated 0x00000002#32)) ∧
  (∀ s : State, s.status.valid = true → (¬ ∃ input, s.admits input) →
    ∃ a, exec .encode s = .refused (.hostReadRefused a))

/-! ### GET_MODULE, NOP and ILLEGAL -/

/-- R270: GET_MODULE puts the bit `BM[Y][31 - X]` into STATUS.MODULE and changes nothing else; with DONE = 0 it raises BitmapNotReady,
and otherwise with X or Y not below CTX_SIZE it raises ModuleOutOfRange. -/
def Obligations.GetModuleReadsOneModule : Prop :=
  ∀ (x y : BitVec 5) (s : State),
    (s.status.done = true → x.toNat < s.ctx.size.toNat → y.toNat < s.ctx.size.toNat →
      exec (.getModule x y) s =
        .next { s with status := { s.status with moduleBit := (s.bitmapWord y.toNat).getLsbD (31 - x.toNat) } }) ∧
    (s.status.done = false → exec (.getModule x y) s = .fault (.bitmapNotReady (encode (.getModule x y)))) ∧
    (s.status.done = true → (s.ctx.size.toNat ≤ x.toNat ∨ s.ctx.size.toNat ≤ y.toNat) →
      exec (.getModule x y) s = .fault (.moduleOutOfRange x.toNat y.toNat s.ctx.size.toNat))

/-- R272 and R278: NOP changes nothing; an illegal command word sets STATUS.ILL and changes nothing else. -/
def Obligations.NopAndIllegalWords : Prop :=
  ∀ s : State,
    exec .nop s = .next s ∧
    ∀ w : Word, exec (.illegal w) s = .next { s with status := { s.status with ill := true } }

/-! ### Register accesses -/

/-- R273, R274 and R275, and R277 for the ignored writes: what a host write of each register does, and that it does nothing else. -/
def Obligations.HostWritesChangeOnlyTheirRegister : Prop :=
  ∀ (s : State) (off : Nat) (v : Word) (rest : List HostEvent), s.pending = .regWrite off 4 v :: rest →
    (off = 0x008 → step s = .next { s with pending := rest, dataAddr := v }) ∧
    (off = 0x004 →
      step s = .next { s with
        pending := rest, status := { s.status with ill := if v.getLsbD 4 then false else s.status.ill } }) ∧
    (∀ i, i < 70 → off = 0x200 + 4 * i →
      ∃ t, step s = .next t ∧ t = { s with pending := rest, cw := t.cw } ∧
        t.codeword i = some (v.extractLsb' 0 8) ∧ ∀ j, j ≠ i → t.codeword j = s.codeword j) ∧
    (off % 4 = 0 → off ≤ 0x3FC → off ≠ 0x000 → off ≠ 0x004 → off ≠ 0x008 → (∀ i, i < 70 → off ≠ 0x200 + 4 * i) →
      step s = .next { s with pending := rest })

/-- What a host read of each offset returns (R271, R276, and R277 for the named registers and the reserved offsets), and that it changes
nothing of the block. A row word of BM holds the stored modules where DONE = 1 and both coordinates are below CTX_SIZE, and a free value
at every other bit. The free byte of an unwritten codeword may be any byte. That the draw counter moves on by 1 is the model's choice
(log 2). -/
def Obligations.HostReadsReturnTheRegisters : Prop :=
  ∀ (s : State) (off : Nat) (rest : List HostEvent), s.pending = .regRead off 4 :: rest → off % 4 = 0 → off ≤ 0x3FC →
    ∃ v : Word, step s = .next { s with pending := rest, readLog := v :: s.readLog, draws := s.draws + 1 } ∧
      (∀ o value,
        (o, value) ∈
          [(0x000, 0#32), (0x004, s.status.toWord), (0x008, s.dataAddr), (0x00C, s.ctx.addr),
            (0x010, s.ctx.version.setWidth 32), (0x014, s.ctx.size.setWidth 32), (0x018, s.ctx.inlen.setWidth 32),
            (0x01C, s.ctx.lpTotal.setWidth 32), (0x020, s.ctx.lpData.setWidth 32), (0x024, s.ctx.lpEcc.setWidth 32),
            (0x028, s.ctx.lpNblk.setWidth 32), (0x02C, s.maskSel.setWidth 32), (0x030, s.fmt.setWidth 32),
            (0x034, s.score.total.setWidth 32), (0x038, s.score.n1.setWidth 32), (0x03C, s.score.n2.setWidth 32),
            (0x040, s.score.n3.setWidth 32), (0x044, s.score.n4.setWidth 32), (0x048, s.config.setWidth 32)] →
        off = o → v = value) ∧
      (∀ m : Fin 8, off = 0x080 + 4 * m.val → v = s.pen[m].setWidth 32) ∧
      (∀ y : Fin 29, off = 0x100 + 4 * y.val →
        v = s.bitmapWord y.val ∧
        ∀ x, x < 32 →
          v.getLsbD (31 - x) =
            if s.status.done = true ∧ x < s.ctx.size.toNat ∧ y.val < s.ctx.size.toNat then s.bitmap.rows[y].getLsbD (31 - x)
            else (Config.freeRow s.bitmap.draw y.val).getLsbD (31 - x)) ∧
      (∀ i : Fin 70, off = 0x200 + 4 * i.val →
        (∀ b : Byte, s.codeword i.val = some b → v = b.setWidth 32) ∧ (s.codeword i.val = none → v.extractLsb' 8 24 = 0#24)) ∧
      ((0x048 < off ∧ off < 0x080) ∨ (0x0A0 ≤ off ∧ off < 0x100) ∨ (0x174 ≤ off ∧ off < 0x200) ∨ 0x318 ≤ off → v = 0#32)

/-- STATUS as the host reads it: bits 0 to 4 are VALID, DONE, EVRES, MODULE and ILL, and bits 31:5 read 0 (R36). -/
def Obligations.StatusWordHoldsTheFlags : Prop :=
  ∀ f : Status,
    f.toWord.getLsbD 0 = f.valid ∧ f.toWord.getLsbD 1 = f.done ∧ f.toWord.getLsbD 2 = f.evres ∧
    f.toWord.getLsbD 3 = f.moduleBit ∧ f.toWord.getLsbD 4 = f.ill ∧ f.toWord.extractLsb' 5 27 = 0#27

/-- R306: a register access whose size is not 4 bytes or whose offset is not 4-aligned raises RegisterAccessFault, which records the
offset and the size; a fault answers no state, so the access has no effect. -/
def Obligations.MisalignedOrNarrowAccessFaults : Prop :=
  ∀ (s : State) (off size : Nat) (v : Word) (rest : List HostEvent), (size ≠ 4 ∨ off % 4 ≠ 0) →
    (s.pending = .regWrite off size v :: rest → step s = .fault (.registerAccessFault off size)) ∧
    (s.pending = .regRead off size :: rest → step s = .fault (.registerAccessFault off size))

/-! ### Whole-machine rules -/

/-- No command writes host memory (R72), DATA_ADDR (R37) or CONFIG (R51), or touches the host's accesses or what it has read: every
byte of host memory reads after a command as before it. -/
def Obligations.CommandsWriteNothingOfTheHost : Prop :=
  ∀ (i : Instr) (s t : State), exec i s = .next t →
    (∀ a, t.hostMem.read a = s.hostMem.read a) ∧ t.hostMem = s.hostMem ∧ t.dataAddr = s.dataAddr ∧ t.config = s.config ∧
    t.pending = s.pending ∧ t.readLog = s.readLog

/-- Each register and storage array changes only in the commands whose rules write it: the context registers in an EVALUATE that succeeds
(R61 a), each field of STATUS in the commands that set or clear it (R36), the others as R46 to R50, R56 and R57 say; DATA_ADDR and
CONFIG in none (R37, R51). -/
def Obligations.EachRegisterHasItsWriters : Prop :=
  ∀ (i : Instr) (s t : State), exec i s = .next t →
    (t.ctx ≠ s.ctx → ∃ ver len, i = .evaluate ver len ∧ t.status.evres = true) ∧
    ((t.status.valid ≠ s.status.valid ∨ t.status.evres ≠ s.status.evres) → ∃ ver len, i = .evaluate ver len) ∧
    (t.status.done ≠ s.status.done →
      (t.status.done = true ∧ (i ∈ [.select, .encode] ∨ ∃ m, i = .place m)) ∨
        (t.status.done = false ∧ t.status.evres = true ∧ ∃ ver len, i = .evaluate ver len)) ∧
    (t.status.moduleBit ≠ s.status.moduleBit → ∃ x y, i = .getModule x y) ∧
    (t.status.ill ≠ s.status.ill → t.status.ill = true ∧ ∃ w, i = .illegal w) ∧
    (t.cw ≠ s.cw → i ∈ [.assemble, .rsEncode, .encode]) ∧
    (t.bitmap ≠ s.bitmap ∨ t.maskSel ≠ s.maskSel → i ∈ [.select, .encode] ∨ ∃ m, i = .place m) ∧
    (t.fmt ≠ s.fmt → i ∈ [.select, .encode] ∨ ∃ m, i = .place m ∨ i = .formatWord m) ∧
    (t.score ≠ s.score → i ∈ [.score, .select, .encode]) ∧
    (t.pen ≠ s.pen → i ∈ [.select, .encode]) ∧
    t.dataAddr = s.dataAddr ∧ t.config = s.config

/-- The invariant holds after reset. -/
def Obligations.ResetSatisfiesTheInvariant : Prop := Inv State.reset

/-- R61: every step keeps the invariant, in which (b) and (c) are stated, from every state that has it. Outside reset, (a) the context
registers change only in an EVALUATE that succeeds, and (c) BM changes only in a PLACE, SELECT or ENCODE, which sets DONE for the
current CTX_SIZE. -/
def Obligations.EveryStepKeepsTheInvariant : Prop :=
  ∀ s t : State, Inv s → step s = .next t →
    Inv t ∧
    (t.ctx ≠ s.ctx → s.pending.head? ≠ some .reset →
      (∃ ver len, s.nextCommand = some (.evaluate ver len)) ∧
        t.status.valid = true ∧ t.status.evres = true ∧ t.status.done = false) ∧
    (t.bitmap ≠ s.bitmap → s.pending.head? ≠ some .reset →
      (s.nextCommand = some .select ∨ s.nextCommand = some .encode ∨ ∃ m, s.nextCommand = some (.place m)) ∧
        t.status.done = true ∧ t.holdsSymbol)

/-- R347: TIER changes nothing but CONFIG: a command run with another CONFIG has the same outcome, with that CONFIG in it. -/
def Obligations.TierChangesNothingButConfig : Prop :=
  ∀ (i : Instr) (s : State) (c : BitVec 2),
    exec i { s with config := c } = mapNext (fun t => { t with config := c }) (exec i s)

/-- A second agent's command, and a store into the input buffer `[CTX_ADDR, CTX_ADDR + CTX_INLEN)` while ASSEMBLE or ENCODE runs, are
ProtocolViolations that record the running word and the intrusion (R82, R301, R308); every other store while a command runs, one just
outside the buffer of ASSEMBLE or ENCODE among them, is as one after it (the model's reading, log 6). -/
def Obligations.ContendedCommandsViolateTheProtocol : Prop :=
  ∀ (s : State) (word other : Word) (a : Word) (b : Byte) (rest : List HostEvent),
    (s.pending = .contendedCommand word (.command other) :: rest →
      step s = .fault (.protocolViolation word (.command other))) ∧
    (s.pending = .contendedCommand word (.store a b) :: rest → decode word ∈ [.assemble, .encode] →
      s.ctx.addr.toNat ≤ a.toNat → a.toNat < s.ctx.addr.toNat + s.ctx.inlen.toNat →
      step s = .fault (.protocolViolation word (.store a b))) ∧
    (s.pending = .contendedCommand word (.store a b) :: rest →
      (decode word ∉ [.assemble, .encode] ∨ a.toNat < s.ctx.addr.toNat ∨ s.ctx.addr.toNat + s.ctx.inlen.toNat ≤ a.toNat) →
      step s = andThen (exec (decode word) { s with pending := rest }) fun t => .next (hostStore a b t))

/-- In every state with the invariant and DONE = 1, the symbol in BM names its own mask: both format copies, read from BM, hold the
format word of MASK_SEL, and the dark module is dark (R61 c, R207, R185). -/
def Obligations.SymbolInBitmapNamesItsMask : Prop :=
  ∀ s : State, Inv s → s.status.done = true →
    (let n := s.ctx.size.toNat
     let bm : Grid := fun x y => (s.bitmapWord y).getLsbD (31 - x)
     (∀ i x y, [(8, 0), (8, 1), (8, 2), (8, 3), (8, 4), (8, 5), (8, 7), (8, 8), (7, 8), (5, 8), (4, 8), (3, 8), (2, 8), (1, 8),
        (0, 8)][i]? = some (x, y) → bm x y = (fmtWord s.maskSel).getLsbD i) ∧
     (∀ i, i < 8 → bm (n - 1 - i) 8 = (fmtWord s.maskSel).getLsbD i) ∧
     (∀ i, 8 ≤ i → i < 15 → bm 8 (n - 15 + i) = (fmtWord s.maskSel).getLsbD i) ∧
     bm 8 (n - 8) = true)

/-- A host store changes the byte it is stored to and no other byte of host memory, and nothing of the block (R340). That a store admits its
byte, at any 32-bit address, so that it then reads as stored, is the model's choice (log 4). -/
def Obligations.HostStoreChangesOneByte : Prop :=
  ∀ (s : State) (a : Word) (b : Byte) (rest : List HostEvent), s.pending = .memStore a b :: rest →
    ∃ t, step s = .next t ∧ t = { s with pending := rest, hostMem := t.hostMem } ∧
      t.hostMem.read a.toNat = some b ∧ ∀ a', a' ≠ a.toNat → t.hostMem.read a' = s.hostMem.read a'
end

