-- ==== Sys2Proof/Laws/State.lean ====
section
/-! SUPPORT. One lemma per field for each named update of the state, true by definition, so that no proof unfolds an update. -/

namespace Sys2Proof.Machine

variable (s : State)

/-! ### writeCodewords -/

@[simp] theorem writeCodewords_status (start : Nat) (bs : List Byte) : (s.writeCodewords start bs).status = s.status := rfl
@[simp] theorem writeCodewords_dataAddr (start : Nat) (bs : List Byte) : (s.writeCodewords start bs).dataAddr = s.dataAddr := rfl
@[simp] theorem writeCodewords_ctx (start : Nat) (bs : List Byte) : (s.writeCodewords start bs).ctx = s.ctx := rfl
@[simp] theorem writeCodewords_maskSel (start : Nat) (bs : List Byte) : (s.writeCodewords start bs).maskSel = s.maskSel := rfl
@[simp] theorem writeCodewords_fmt (start : Nat) (bs : List Byte) : (s.writeCodewords start bs).fmt = s.fmt := rfl
@[simp] theorem writeCodewords_score (start : Nat) (bs : List Byte) : (s.writeCodewords start bs).score = s.score := rfl
@[simp] theorem writeCodewords_pen (start : Nat) (bs : List Byte) : (s.writeCodewords start bs).pen = s.pen := rfl
@[simp] theorem writeCodewords_config (start : Nat) (bs : List Byte) : (s.writeCodewords start bs).config = s.config := rfl
@[simp] theorem writeCodewords_bitmap (start : Nat) (bs : List Byte) : (s.writeCodewords start bs).bitmap = s.bitmap := rfl
@[simp] theorem writeCodewords_hostMem (start : Nat) (bs : List Byte) : (s.writeCodewords start bs).hostMem = s.hostMem := rfl
@[simp] theorem writeCodewords_pending (start : Nat) (bs : List Byte) : (s.writeCodewords start bs).pending = s.pending := rfl
@[simp] theorem writeCodewords_readLog (start : Nat) (bs : List Byte) : (s.writeCodewords start bs).readLog = s.readLog := rfl
@[simp] theorem writeCodewords_draws (start : Nat) (bs : List Byte) : (s.writeCodewords start bs).draws = s.draws := rfl

/-! ### writeBitmap -/

@[simp] theorem writeBitmap_status (rows : List Word) : (s.writeBitmap rows).status = s.status := rfl
@[simp] theorem writeBitmap_dataAddr (rows : List Word) : (s.writeBitmap rows).dataAddr = s.dataAddr := rfl
@[simp] theorem writeBitmap_ctx (rows : List Word) : (s.writeBitmap rows).ctx = s.ctx := rfl
@[simp] theorem writeBitmap_maskSel (rows : List Word) : (s.writeBitmap rows).maskSel = s.maskSel := rfl
@[simp] theorem writeBitmap_fmt (rows : List Word) : (s.writeBitmap rows).fmt = s.fmt := rfl
@[simp] theorem writeBitmap_score (rows : List Word) : (s.writeBitmap rows).score = s.score := rfl
@[simp] theorem writeBitmap_pen (rows : List Word) : (s.writeBitmap rows).pen = s.pen := rfl
@[simp] theorem writeBitmap_config (rows : List Word) : (s.writeBitmap rows).config = s.config := rfl
@[simp] theorem writeBitmap_bitmap (rows : List Word) :
    (s.writeBitmap rows).bitmap = ⟨writeFrom s.bitmap.rows 0 rows, s.draws⟩ := rfl
@[simp] theorem writeBitmap_cw (rows : List Word) : (s.writeBitmap rows).cw = s.cw := rfl
@[simp] theorem writeBitmap_hostMem (rows : List Word) : (s.writeBitmap rows).hostMem = s.hostMem := rfl
@[simp] theorem writeBitmap_pending (rows : List Word) : (s.writeBitmap rows).pending = s.pending := rfl
@[simp] theorem writeBitmap_readLog (rows : List Word) : (s.writeBitmap rows).readLog = s.readLog := rfl
@[simp] theorem writeBitmap_draws (rows : List Word) : (s.writeBitmap rows).draws = s.draws + 1 := rfl

/-! ### commitSymbol -/

@[simp] theorem commitSymbol_dataAddr (v : Nat) (S : List Byte) (m : BitVec 3) : (s.commitSymbol v S m).dataAddr = s.dataAddr := rfl
@[simp] theorem commitSymbol_ctx (v : Nat) (S : List Byte) (m : BitVec 3) : (s.commitSymbol v S m).ctx = s.ctx := rfl
@[simp] theorem commitSymbol_score (v : Nat) (S : List Byte) (m : BitVec 3) : (s.commitSymbol v S m).score = s.score := rfl
@[simp] theorem commitSymbol_pen (v : Nat) (S : List Byte) (m : BitVec 3) : (s.commitSymbol v S m).pen = s.pen := rfl
@[simp] theorem commitSymbol_config (v : Nat) (S : List Byte) (m : BitVec 3) : (s.commitSymbol v S m).config = s.config := rfl
@[simp] theorem commitSymbol_cw (v : Nat) (S : List Byte) (m : BitVec 3) : (s.commitSymbol v S m).cw = s.cw := rfl
@[simp] theorem commitSymbol_hostMem (v : Nat) (S : List Byte) (m : BitVec 3) : (s.commitSymbol v S m).hostMem = s.hostMem := rfl
@[simp] theorem commitSymbol_pending (v : Nat) (S : List Byte) (m : BitVec 3) : (s.commitSymbol v S m).pending = s.pending := rfl
@[simp] theorem commitSymbol_readLog (v : Nat) (S : List Byte) (m : BitVec 3) : (s.commitSymbol v S m).readLog = s.readLog := rfl
@[simp] theorem commitSymbol_status (v : Nat) (S : List Byte) (m : BitVec 3) : (s.commitSymbol v S m).status = s.status.placed := rfl
@[simp] theorem commitSymbol_maskSel (v : Nat) (S : List Byte) (m : BitVec 3) : (s.commitSymbol v S m).maskSel = m := rfl
@[simp] theorem commitSymbol_fmt (v : Nat) (S : List Byte) (m : BitVec 3) : (s.commitSymbol v S m).fmt = fmtWord m := rfl
@[simp] theorem commitSymbol_draws (v : Nat) (S : List Byte) (m : BitVec 3) : (s.commitSymbol v S m).draws = s.draws + 1 := rfl
@[simp] theorem commitSymbol_bitmap (v : Nat) (S : List Byte) (m : BitVec 3) :
    (s.commitSymbol v S m).bitmap = (s.writeBitmap (placeRows v S m)).bitmap := rfl

/-! ### commitWinner -/

@[simp] theorem commitWinner_dataAddr (v : Nat) (S : List Byte) : (s.commitWinner v S).dataAddr = s.dataAddr := rfl
@[simp] theorem commitWinner_ctx (v : Nat) (S : List Byte) : (s.commitWinner v S).ctx = s.ctx := rfl
@[simp] theorem commitWinner_config (v : Nat) (S : List Byte) : (s.commitWinner v S).config = s.config := rfl
@[simp] theorem commitWinner_cw (v : Nat) (S : List Byte) : (s.commitWinner v S).cw = s.cw := rfl
@[simp] theorem commitWinner_hostMem (v : Nat) (S : List Byte) : (s.commitWinner v S).hostMem = s.hostMem := rfl
@[simp] theorem commitWinner_pending (v : Nat) (S : List Byte) : (s.commitWinner v S).pending = s.pending := rfl
@[simp] theorem commitWinner_readLog (v : Nat) (S : List Byte) : (s.commitWinner v S).readLog = s.readLog := rfl
@[simp] theorem commitWinner_status (v : Nat) (S : List Byte) : (s.commitWinner v S).status = s.status.placed := rfl
@[simp] theorem commitWinner_maskSel (v : Nat) (S : List Byte) : (s.commitWinner v S).maskSel = winningMask v S := rfl
@[simp] theorem commitWinner_fmt (v : Nat) (S : List Byte) : (s.commitWinner v S).fmt = fmtWord (winningMask v S) := rfl
@[simp] theorem commitWinner_draws (v : Nat) (S : List Byte) : (s.commitWinner v S).draws = s.draws + 1 := rfl
@[simp] theorem commitWinner_bitmap (v : Nat) (S : List Byte) : (s.commitWinner v S).bitmap = (s.commitSymbol v S (winningMask v S)).bitmap := rfl
@[simp] theorem commitWinner_score (v : Nat) (S : List Byte) : (s.commitWinner v S).score = scoreOf (candidatePenalty v S (winningMask v S)) := rfl
@[simp] theorem commitWinner_pen (v : Nat) (S : List Byte) :
    (s.commitWinner v S).pen = writeFrom s.pen 0 ((candidates v S).map fun p => BitVec.ofNat 16 (penaltyTotal p)) := rfl

/-! ### hostStore -/

@[simp] theorem hostStore_status (a : Word) (b : Byte) : (hostStore a b s).status = s.status := rfl
@[simp] theorem hostStore_dataAddr (a : Word) (b : Byte) : (hostStore a b s).dataAddr = s.dataAddr := rfl
@[simp] theorem hostStore_ctx (a : Word) (b : Byte) : (hostStore a b s).ctx = s.ctx := rfl
@[simp] theorem hostStore_maskSel (a : Word) (b : Byte) : (hostStore a b s).maskSel = s.maskSel := rfl
@[simp] theorem hostStore_fmt (a : Word) (b : Byte) : (hostStore a b s).fmt = s.fmt := rfl
@[simp] theorem hostStore_score (a : Word) (b : Byte) : (hostStore a b s).score = s.score := rfl
@[simp] theorem hostStore_pen (a : Word) (b : Byte) : (hostStore a b s).pen = s.pen := rfl
@[simp] theorem hostStore_config (a : Word) (b : Byte) : (hostStore a b s).config = s.config := rfl
@[simp] theorem hostStore_bitmap (a : Word) (b : Byte) : (hostStore a b s).bitmap = s.bitmap := rfl
@[simp] theorem hostStore_cw (a : Word) (b : Byte) : (hostStore a b s).cw = s.cw := rfl
@[simp] theorem hostStore_hostMem (a : Word) (b : Byte) : (hostStore a b s).hostMem = s.hostMem.write a.toNat b := rfl
@[simp] theorem hostStore_pending (a : Word) (b : Byte) : (hostStore a b s).pending = s.pending := rfl
@[simp] theorem hostStore_readLog (a : Word) (b : Byte) : (hostStore a b s).readLog = s.readLog := rfl
@[simp] theorem hostStore_draws (a : Word) (b : Byte) : (hostStore a b s).draws = s.draws := rfl

/-! ### queueCommand -/

@[simp] theorem queueCommand_status (w : Word) : (queueCommand s w).status = s.status := rfl
@[simp] theorem queueCommand_dataAddr (w : Word) : (queueCommand s w).dataAddr = s.dataAddr := rfl
@[simp] theorem queueCommand_ctx (w : Word) : (queueCommand s w).ctx = s.ctx := rfl
@[simp] theorem queueCommand_maskSel (w : Word) : (queueCommand s w).maskSel = s.maskSel := rfl
@[simp] theorem queueCommand_fmt (w : Word) : (queueCommand s w).fmt = s.fmt := rfl
@[simp] theorem queueCommand_score (w : Word) : (queueCommand s w).score = s.score := rfl
@[simp] theorem queueCommand_pen (w : Word) : (queueCommand s w).pen = s.pen := rfl
@[simp] theorem queueCommand_config (w : Word) : (queueCommand s w).config = s.config := rfl
@[simp] theorem queueCommand_bitmap (w : Word) : (queueCommand s w).bitmap = s.bitmap := rfl
@[simp] theorem queueCommand_cw (w : Word) : (queueCommand s w).cw = s.cw := rfl
@[simp] theorem queueCommand_hostMem (w : Word) : (queueCommand s w).hostMem = s.hostMem := rfl
@[simp] theorem queueCommand_pending (w : Word) : (queueCommand s w).pending = .regWrite 0x000 4 w :: s.pending := rfl
@[simp] theorem queueCommand_readLog (w : Word) : (queueCommand s w).readLog = s.readLog := rfl
@[simp] theorem queueCommand_draws (w : Word) : (queueCommand s w).draws = s.draws := rfl

/-! ### resetBlock -/

@[simp] theorem resetBlock_status : s.resetBlock.status = State.reset.status := rfl
@[simp] theorem resetBlock_dataAddr : s.resetBlock.dataAddr = State.reset.dataAddr := rfl
@[simp] theorem resetBlock_ctx : s.resetBlock.ctx = State.reset.ctx := rfl
@[simp] theorem resetBlock_maskSel : s.resetBlock.maskSel = State.reset.maskSel := rfl
@[simp] theorem resetBlock_fmt : s.resetBlock.fmt = State.reset.fmt := rfl
@[simp] theorem resetBlock_score : s.resetBlock.score = State.reset.score := rfl
@[simp] theorem resetBlock_pen : s.resetBlock.pen = State.reset.pen := rfl
@[simp] theorem resetBlock_config : s.resetBlock.config = s.config := rfl
@[simp] theorem resetBlock_bitmap : s.resetBlock.bitmap = { State.reset.bitmap with draw := s.draws } := rfl
@[simp] theorem resetBlock_cw : s.resetBlock.cw = State.reset.cw := rfl
@[simp] theorem resetBlock_hostMem : s.resetBlock.hostMem = s.hostMem := rfl
@[simp] theorem resetBlock_pending : s.resetBlock.pending = s.pending := rfl
@[simp] theorem resetBlock_readLog : s.resetBlock.readLog = s.readLog := rfl
@[simp] theorem resetBlock_draws : s.resetBlock.draws = s.draws + 1 := rfl

/-! ### State.reset -/

@[simp] theorem reset_status : State.reset.status = ⟨false, false, false, false, false⟩ := rfl
@[simp] theorem reset_dataAddr : State.reset.dataAddr = 0#32 := rfl
@[simp] theorem reset_ctx : State.reset.ctx = ⟨0#32, 0#2, 0#5, 0#6, 0#7, 0#6, 0#4, 0#2⟩ := rfl
@[simp] theorem reset_maskSel : State.reset.maskSel = 0#3 := rfl
@[simp] theorem reset_fmt : State.reset.fmt = 0#15 := rfl
@[simp] theorem reset_score : State.reset.score = ⟨0#16, 0#16, 0#16, 0#16, 0#16⟩ := rfl
@[simp] theorem reset_pen : State.reset.pen = Vector.replicate 8 0#16 := rfl
@[simp] theorem reset_config : State.reset.config = BitVec.ofNat 2 Config.tier.val := rfl
@[simp] theorem reset_bitmap : State.reset.bitmap = ⟨Vector.replicate 29 0#32, 0⟩ := rfl
@[simp] theorem reset_cw : State.reset.cw = Vector.replicate 70 none := rfl
@[simp] theorem reset_hostMem : State.reset.hostMem = [] := rfl
@[simp] theorem reset_pending : State.reset.pending = [] := rfl
@[simp] theorem reset_readLog : State.reset.readLog = [] := rfl

/-! ### symbolSide -/

theorem symbolSide_of_done {s : State} (h : s.status.done = true) : s.symbolSide = s.ctx.size.toNat := by
  simp [State.symbolSide, h]

theorem symbolSide_of_not {s : State} (h : s.status.done = false) : s.symbolSide = 0 := by simp [State.symbolSide, h]

/-! ### STATUS -/

variable (f : Status)

@[simp] theorem evaluated_valid : f.evaluated.valid = true := rfl
@[simp] theorem evaluated_evres : f.evaluated.evres = true := rfl
@[simp] theorem evaluated_done : f.evaluated.done = false := rfl
@[simp] theorem evaluated_moduleBit : f.evaluated.moduleBit = f.moduleBit := rfl
@[simp] theorem evaluated_ill : f.evaluated.ill = f.ill := rfl
@[simp] theorem rejected_valid : f.rejected.valid = false := rfl
@[simp] theorem rejected_evres : f.rejected.evres = false := rfl
@[simp] theorem rejected_done : f.rejected.done = f.done := rfl
@[simp] theorem rejected_moduleBit : f.rejected.moduleBit = f.moduleBit := rfl
@[simp] theorem rejected_ill : f.rejected.ill = f.ill := rfl
@[simp] theorem placed_valid : f.placed.valid = f.valid := rfl
@[simp] theorem placed_evres : f.placed.evres = f.evres := rfl
@[simp] theorem placed_done : f.placed.done = true := rfl
@[simp] theorem placed_moduleBit : f.placed.moduleBit = f.moduleBit := rfl
@[simp] theorem placed_ill : f.placed.ill = f.ill := rfl
@[simp] theorem returned_valid (b : Bool) : (f.returned b).valid = f.valid := rfl
@[simp] theorem returned_evres (b : Bool) : (f.returned b).evres = f.evres := rfl
@[simp] theorem returned_done (b : Bool) : (f.returned b).done = f.done := rfl
@[simp] theorem returned_moduleBit (b : Bool) : (f.returned b).moduleBit = b := rfl
@[simp] theorem returned_ill (b : Bool) : (f.returned b).ill = f.ill := rfl
@[simp] theorem illegal_valid : f.illegal.valid = f.valid := rfl
@[simp] theorem illegal_evres : f.illegal.evres = f.evres := rfl
@[simp] theorem illegal_done : f.illegal.done = f.done := rfl
@[simp] theorem illegal_moduleBit : f.illegal.moduleBit = f.moduleBit := rfl
@[simp] theorem illegal_ill : f.illegal.ill = true := rfl
@[simp] theorem hostWrite_valid (v : Word) : (f.hostWrite v).valid = f.valid := rfl
@[simp] theorem hostWrite_evres (v : Word) : (f.hostWrite v).evres = f.evres := rfl
@[simp] theorem hostWrite_done (v : Word) : (f.hostWrite v).done = f.done := rfl
@[simp] theorem hostWrite_moduleBit (v : Word) : (f.hostWrite v).moduleBit = f.moduleBit := rfl
@[simp] theorem hostWrite_ill (v : Word) : (f.hostWrite v).ill = (f.ill && !v.getLsbD 4) := rfl

end Sys2Proof.Machine
end

