-- ==== Sys2Proof/Laws/Ops.lean ====
section
/-! SUPPORT. What each shared operation can do, said once: sequencing, preconditions, host memory, codewords, bitmap. -/

namespace Sys2Proof.Machine

/-! ### Sequencing and preconditions -/

@[simp] theorem andThen_next (s : State) (k : State → Result) : andThen (.next s) k = k s := rfl
@[simp] theorem andThen_fault (f : Fault) (k : State → Result) : andThen (.fault f) k = .fault f := rfl
@[simp] theorem andThen_refused (q : Refusal) (k : State → Result) : andThen (.refused q) k = .refused q := rfl

theorem andThen_eq_next {r : Result} {k : State → Result} {t : State} :
    andThen r k = .next t ↔ ∃ a, r = .next a ∧ k a = .next t := by
  cases r <;> simp [andThen]

theorem requireValid_eq_next {word : Word} {s : State} {k : Result} {t : State} :
    requireValid word s k = .next t ↔ s.status.valid = true ∧ k = .next t := by
  unfold requireValid; split <;> simp_all

theorem requireValid_of_valid {word : Word} {s : State} {k : Result} (h : s.status.valid = true) :
    requireValid word s k = k := by simp [requireValid, h]

theorem requireValid_of_not {word : Word} {s : State} {k : Result} (h : s.status.valid = false) :
    requireValid word s k = .fault (.encodeUnevaluated word) := by simp [requireValid, h]

theorem requireDone_eq_next {word : Word} {s : State} {k : Result} {t : State} :
    requireDone word s k = .next t ↔ s.status.done = true ∧ k = .next t := by
  unfold requireDone; split <;> simp_all

theorem requireDone_of_done {word : Word} {s : State} {k : Result} (h : s.status.done = true) :
    requireDone word s k = k := by simp [requireDone, h]

theorem requireDone_of_not {word : Word} {s : State} {k : Result} (h : s.status.done = false) :
    requireDone word s k = .fault (.bitmapNotReady word) := by simp [requireDone, h]

theorem firstUnwritten_eq_none {s : State} {n : Nat} : s.firstUnwritten n = none ↔ s.writtenBelow n := by
  simp [State.firstUnwritten, State.writtenBelow, Option.isSome_iff_ne_none]

theorem find?_range_eq_some {p : Nat → Bool} {n i : Nat} :
    (List.range n).find? p = some i ↔ i < n ∧ p i = true ∧ ∀ j, j < i → p j = false := by
  induction n with
  | zero => simp
  | succ n ih =>
    rw [List.range_succ, List.find?_append]
    cases h : (List.range n).find? p with
    | some k =>
      have hk : k < n ∧ p k = true := by
        have := List.mem_of_find?_eq_some h; have := List.find?_some h; simp_all
      simp only [Option.some_or]
      constructor
      · intro e; have := ih.mp (by rw [h, e]); exact ⟨by omega, this.2.1, this.2.2⟩
      · rintro ⟨h1, h2, h3⟩
        rw [← h]; refine ih.mpr ⟨?_, h2, h3⟩
        by_contra hge
        have := h3 k (by omega); simp_all
    | none =>
      simp only [List.find?_eq_none, List.mem_range] at h
      simp only [Option.none_or, List.find?_singleton]
      constructor
      · intro e
        split at e
        · cases e; refine ⟨by omega, by assumption, fun j hj => by simpa using h j hj⟩
        · cases e
      · rintro ⟨h1, h2, -⟩
        have : i = n := by
          by_contra hne; exact absurd h2 (by simpa using h i (by omega))
        subst this; simp [h2]

theorem firstUnwritten_eq_some {s : State} {n i : Nat} :
    s.firstUnwritten n = some i ↔ i < n ∧ s.codeword i = none ∧ s.writtenBelow i := by
  simp only [State.firstUnwritten, find?_range_eq_some, Option.isNone_iff_eq_none, State.writtenBelow,
    Option.isNone_eq_false_iff]

theorem requireWritten_eq_next {word : Word} {n : Nat} {s : State} {k : Result} {t : State} :
    requireWritten word n s k = .next t ↔ s.writtenBelow n ∧ k = .next t := by
  rw [← firstUnwritten_eq_none]
  unfold requireWritten
  cases s.firstUnwritten n <;> simp

theorem requireWritten_of_written {word : Word} {n : Nat} {s : State} {k : Result} (h : s.writtenBelow n) :
    requireWritten word n s k = k := by
  simp [requireWritten, firstUnwritten_eq_none.mpr h]

theorem requireWritten_of_unwritten {word : Word} {n i : Nat} {s : State} {k : Result} (hi : i < n)
    (hn : s.codeword i = none) (hw : s.writtenBelow i) :
    requireWritten word n s k = .fault (.codewordUnwritten word i) := by
  simp [requireWritten, firstUnwritten_eq_some.mpr ⟨hi, hn, hw⟩]

/-! ### Host memory -/

@[simp] theorem read_nil (a : Nat) : Memory.read [] a = none := rfl

theorem read_cons (a' : Nat) (b' : Byte) (m : Memory) (a : Nat) :
    Memory.read ((a', b') :: m) a = if a = a' then some b' else Memory.read m a := by
  simp only [Memory.read, List.lookup_cons]
  by_cases h : a = a'
  · simp [h]
  · simp [h, beq_false_of_ne h]

theorem read_write_same (m : Memory) (a : Nat) (b : Byte) : (m.write a b).read a = some b := by
  induction m with
  | nil => simp [Memory.write, read_cons]
  | cons c m ih =>
    obtain ⟨a', b'⟩ := c
    simp only [Memory.write]
    split
    · simp [read_cons]
    · split
      · simp [read_cons]
      · simp [read_cons, *]

theorem read_write_other (m : Memory) {a a₀ : Nat} (b : Byte) (h : a ≠ a₀) : (m.write a₀ b).read a = m.read a := by
  induction m with
  | nil => simp [Memory.write, read_cons, h]
  | cons c m ih =>
    obtain ⟨a', b'⟩ := c
    simp only [Memory.write]
    split
    · simp [read_cons, h]
    · split
      · rename_i _ e; subst e; simp [read_cons, h]
      · simp only [read_cons, ih]

theorem mem_write {m : Memory} {a : Nat} {b : Byte} {c : Host.Cell} (h : c ∈ m.write a b) : c = (a, b) ∨ c ∈ m := by
  induction m with
  | nil => simpa [Memory.write] using h
  | cons d m ih =>
    obtain ⟨a', b'⟩ := d
    simp only [Memory.write] at h
    split at h
    · simpa using h
    · split at h
      · simp only [List.mem_cons] at h ⊢; tauto
      · simp only [List.mem_cons] at h ⊢
        rcases h with h | h
        · tauto
        · have := ih h; tauto

/-- A store inside the space keeps the canonical form of host memory. -/
theorem write_wf {m : Memory} {a : Nat} (b : Byte) (ha : a < 2 ^ Config.addrW) (h : m.wf) : (m.write a b).wf := by
  refine ⟨?_, fun c hc => ?_⟩
  · have hp := h.1
    clear h
    induction m with
    | nil => simp [Memory.write]
    | cons c m ih =>
      obtain ⟨a', b'⟩ := c
      rw [List.pairwise_cons] at hp
      simp only [Memory.write]
      split
      · rename_i hlt
        refine List.pairwise_cons.mpr ⟨fun d hd => ?_, List.pairwise_cons.mpr hp⟩
        rcases List.mem_cons.mp hd with rfl | hd
        · exact hlt
        · exact Nat.lt_trans hlt (hp.1 d hd)
      · split
        · rename_i _ e; subst e; exact List.pairwise_cons.mpr hp
        · refine List.pairwise_cons.mpr ⟨fun d hd => ?_, ih hp.2⟩
          rcases mem_write hd with rfl | hd
          · show a' < a; omega
          · exact hp.1 d hd
  · rcases mem_write hc with rfl | hc
    · exact ha
    · exact h.2 c hc

theorem hostStore_wf {s : State} (a : Word) (b : Byte) (h : s.hostMem.wf) : (hostStore a b s).hostMem.wf :=
  write_wf b (by have := a.isLt; simpa [Config.addrW] using this) h

/-- The bytes are read when all of them are admitted, and they are then the bytes of host memory in address order. -/
theorem readBytes_eq_ok {m : Memory} {a n : Nat} {input : List Byte} :
    m.readBytes a n = .ok input ↔
      input.length = n ∧ (0 < n → a + n ≤ 2 ^ Config.addrW) ∧ ∀ i, i < n → m.read (a + i) = input[i]? := by
  induction n generalizing a input with
  | zero => cases input <;> simp [Memory.readBytes]
  | succ n ih =>
    simp only [Memory.readBytes]
    by_cases hb : 2 ^ Config.addrW ≤ a
    · simp only [hb, if_true]; simp; intro _ h; omega
    · simp only [hb, if_false]
      cases hr : m.read a with
      | none =>
        simp only [reduceCtorEq, false_iff]
        rintro ⟨hl, -, h⟩
        have := h 0 (by omega)
        rw [Nat.add_zero, hr] at this
        cases input <;> simp_all
      | some b =>
        cases hs : m.readBytes (a + 1) n with
        | error e =>
          simp only [reduceCtorEq, false_iff]
          rintro ⟨hl, hw, h⟩
          cases input with
          | nil => simp at hl
          | cons c input =>
            have : m.readBytes (a + 1) n = .ok input := by
              rw [ih]
              refine ⟨by simpa using hl, fun _ => by have := hw (by omega); omega, fun i hi => ?_⟩
              have := h (i + 1) (by omega)
              rw [List.getElem?_cons_succ] at this
              rw [← this]; congr 1; omega
            rw [this] at hs; cases hs
        | ok bs =>
          obtain ⟨hl, hw, h⟩ := ih.mp hs
          simp only [Except.ok.injEq]
          constructor
          · rintro rfl
            refine ⟨by simp [hl], fun _ => ?_, fun i hi => ?_⟩
            · rcases Nat.eq_zero_or_pos n with rfl | hn
              · omega
              · have := hw hn; omega
            · cases i with
              | zero => simpa using hr
              | succ i =>
                rw [List.getElem?_cons_succ, ← h i (by omega)]; congr 1; omega
          · rintro ⟨hl', -, h'⟩
            apply List.ext_getElem?
            intro i
            cases i with
            | zero => have := h' 0 (by omega); rw [Nat.add_zero, hr] at this; simp [this]
            | succ i =>
              rw [List.getElem?_cons_succ]
              by_cases hi : i < n
              · rw [← h i hi, ← h' (i + 1) (by omega)]; congr 1; omega
              · rw [List.getElem?_eq_none (by omega), List.getElem?_eq_none (by omega)]

/-- The read stops at the first address that is not admitted. -/
theorem readBytes_eq_error {m : Memory} {a n e : Nat} :
    m.readBytes a n = .error e ↔
      ∃ i, i < n ∧ e = a + i ∧ (2 ^ Config.addrW ≤ a + i ∨ m.read (a + i) = none) ∧
        ∀ j, j < i → a + j < 2 ^ Config.addrW ∧ (m.read (a + j)).isSome = true := by
  induction n generalizing a with
  | zero => simp [Memory.readBytes]
  | succ n ih =>
    simp only [Memory.readBytes]
    by_cases hb : 2 ^ Config.addrW ≤ a
    · simp only [hb, if_true, Except.error.injEq]
      constructor
      · rintro rfl; exact ⟨0, by omega, rfl, .inl hb, by simp⟩
      · rintro ⟨i, -, rfl, -, h⟩
        rcases Nat.eq_zero_or_pos i with rfl | hi
        · rfl
        · have := (h 0 hi).1; omega
    · simp only [hb, if_false]
      cases hr : m.read a with
      | none =>
        simp only [Except.error.injEq]
        constructor
        · rintro rfl; exact ⟨0, by omega, rfl, .inr hr, by simp⟩
        · rintro ⟨i, -, rfl, -, h⟩
          rcases Nat.eq_zero_or_pos i with rfl | hi
          · rfl
          · have := (h 0 hi).2; simp [hr] at this
      | some b =>
        have key : m.readBytes (a + 1) n = .error e ↔
            ∃ i, i < n + 1 ∧ e = a + i ∧ (2 ^ Config.addrW ≤ a + i ∨ m.read (a + i) = none) ∧
              ∀ j, j < i → a + j < 2 ^ Config.addrW ∧ (m.read (a + j)).isSome = true := by
          rw [ih]
          constructor
          · rintro ⟨i, hi, rfl, h1, h2⟩
            refine ⟨i + 1, by omega, by omega, by rwa [← Nat.add_assoc, Nat.add_right_comm], fun j hj => ?_⟩
            cases j with
            | zero => exact ⟨by omega, by simp [hr]⟩
            | succ j => have := h2 j (by omega); rwa [← Nat.add_assoc, Nat.add_right_comm]
          · rintro ⟨i, hi, rfl, h1, h2⟩
            cases i with
            | zero =>
              rcases h1 with h | h
              · exact absurd h hb
              · rw [Nat.add_zero, hr] at h; cases h
            | succ i =>
              refine ⟨i, by omega, by omega, ?_, fun j hj => ?_⟩
              · rwa [Nat.add_assoc, Nat.add_comm 1 i]
              · have := h2 (j + 1) (by omega); rwa [Nat.add_assoc, Nat.add_comm 1 j]
        rw [← key]
        cases m.readBytes (a + 1) n <;> simp

/-! ### Storage arrays and the codeword buffer -/

theorem getElem?_writeFrom {α : Type} {n : Nat} (v : Vector α n) (start : Nat) (bs : List α) (i : Nat) :
    (writeFrom v start bs)[i]? =
      if start ≤ i ∧ i < start + bs.length ∧ i < n then bs[i - start]? else v[i]? := by
  induction bs generalizing v start with
  | nil => simp [writeFrom]; omega
  | cons b bs ih =>
    simp only [writeFrom, ih, List.length_cons]
    by_cases hs : start + 1 ≤ i ∧ i < start + 1 + bs.length ∧ i < n
    · rw [if_pos hs, if_pos (by omega), show i - start = i - (start + 1) + 1 by omega, List.getElem?_cons_succ]
    · rw [if_neg hs]
      by_cases hi : i = start ∧ i < n
      · obtain ⟨rfl, hn⟩ := hi
        simp [hn]
      · rw [if_neg (by omega)]
        split
        · rename_i hsn; rw [Vector.getElem?_set_ne hsn (by omega)]
        · rfl

theorem codeword_eq_none_of_le {s : State} {i : Nat} (h : 70 ≤ i) : s.codeword i = none := by
  simp [State.codeword, Vector.getElem?_eq_none h]

/-- A write gives the entries it reaches their bytes and leaves every other entry alone. -/
theorem codeword_writeCodewords (s : State) (start : Nat) (bs : List Byte) (i : Nat) :
    (s.writeCodewords start bs).codeword i =
      if start ≤ i ∧ i < start + bs.length ∧ i < 70 then bs[i - start]? else s.codeword i := by
  simp only [State.codeword, State.writeCodewords, getElem?_writeFrom, List.length_map]
  split
  · rename_i h
    rw [List.getElem?_map, List.getElem?_eq_getElem (by omega)]; simp
  · rfl

@[simp] theorem length_codewords (s : State) (n : Nat) : (s.codewords n).length = n := by simp [State.codewords]

theorem getElem?_codewords {s : State} {n i : Nat} (h : i < n) :
    (s.codewords n)[i]? = some ((s.codeword i).getD 0#8) := by
  simp [State.codewords, h]

/-! ### The bitmap -/

/-- Bit `31 - x` of a row word is the module of column `x`. -/
theorem getLsbD_rowWord {n : Nat} (f : Nat → Bool) {x : Nat} (hx : x < 32) :
    (rowWord n f).getLsbD (31 - x) = (decide (x < n) && f x) := by
  have h : 31 - (31 - x) = x := by omega
  have := BitVec.getLsb_ofFnLE (fun i : Fin 32 => decide (31 - i.val < n) && f (31 - i.val)) ⟨31 - x, by omega⟩
  rw [BitVec.getLsb_eq_getElem] at this
  simp only [rowWord]
  rw [BitVec.getLsbD_eq_getElem (by omega)]
  simp only [h] at this; exact this

theorem getLsbD_moduleMask {n x y : Nat} (hx : x < 32) :
    (moduleMask n y).getLsbD (31 - x) = (decide (y < n) && decide (x < n)) := by
  unfold moduleMask
  split <;> simp [getLsbD_rowWord, *]

/-- A bit of the row word the host reads is the module GET_MODULE reads (R270, R271). -/
theorem getLsbD_bitmapWord (s : State) {x : Nat} (y : Nat) (hx : x < 32) :
    (s.bitmapWord y).getLsbD (31 - x) = s.moduleAt x y := by
  have h31 : 31 - x < 32 := by omega
  simp only [State.bitmapWord, State.moduleAt, BitVec.getLsbD_or, BitVec.getLsbD_and, BitVec.getLsbD_not,
    getLsbD_moduleMask hx]
  by_cases hin : x < s.symbolSide ∧ y < s.symbolSide
  · simp [hin]
  · have : (decide (y < s.symbolSide) && decide (x < s.symbolSide)) = false := by
      simp only [Bool.and_eq_false_iff, decide_eq_false_iff_not]; omega
    rw [if_neg hin, this]; simp [h31]

/-- A module of the symbol is the bit of the stored row (R52, R271). -/
theorem moduleAt_inside {s : State} {x y : Nat} (hd : s.status.done = true) (hx : x < s.ctx.size.toNat)
    (hy : y < s.ctx.size.toNat) : s.moduleAt x y = (s.bitmap.row y).getLsbD (31 - x) := by
  simp [State.moduleAt, symbolSide_of_done hd, hx, hy]

/-- A bit that is no module of a complete symbol is a free value (R271). -/
theorem moduleAt_outside {s : State} {x y : Nat}
    (h : ¬(s.status.done = true ∧ x < s.ctx.size.toNat ∧ y < s.ctx.size.toNat)) :
    s.moduleAt x y = (Config.freeRow s.bitmap.draw y).getLsbD (31 - x) := by
  unfold State.moduleAt
  rw [if_neg]
  cases hd : s.status.done
  · simp [symbolSide_of_not hd]
  · rw [symbolSide_of_done hd]; exact fun h' => h ⟨hd, h'⟩

/-- After a bitmap write the rows written are those of the list (R203). -/
theorem row_writeBitmap (s : State) {y : Nat} (rows : List Word) (hy : y < rows.length) (hn : rows.length ≤ 29) :
    (s.writeBitmap rows).bitmap.row y = rows.getD y 0#32 := by
  show ((writeFrom s.bitmap.rows 0 rows)[y]?).getD 0#32 = _
  rw [getElem?_writeFrom, if_pos (by omega)]; simp

end Sys2Proof.Machine
end

