-- ==== Sys2Proof/Laws/Placement.lean ====
section
/-! SUPPORT. What the placement functions give, module by module: the grid of row words, the threaded stream, the complete grid. -/

namespace Sys2Proof.Machine

/-! ### Row words as a grid -/

@[simp] theorem length_placeRows (v : Nat) (stream : List Byte) (m : BitVec 3) :
    (placeRows v stream m).length = sideOf v := by simp [placeRows]

theorem gridOf_map_rowWord {n : Nat} (f : Nat → Nat → Bool) {x y : Nat} (hx : x < 32) (hxn : x < n) (hy : y < n) :
    gridOf ((List.range n).map fun y => rowWord n fun x => f x y) x y = f x y := by
  simp [gridOf, hy, getLsbD_rowWord _ hx, hxn]

/-- A module of the complete grid: a reserved module has its fixed or format value, a data module its threaded bit under the mask
(R202). -/
theorem placeGrid_apply {v : Nat} (stream : List Byte) (m : BitVec 3) {x y : Nat} (hv : v ≤ 3) (hx : x < sideOf v)
    (hy : y < sideOf v) :
    placeGrid v stream m x y =
      if reserved v x y then functionModule v m x y
      else gridOf (threadRows (sideOf v) (zigzag v) stream) x y ^^ maskFn m x y := by
  have : x < 32 := by unfold sideOf at hx; omega
  exact gridOf_map_rowWord (fun x y => if reserved v x y then functionModule v m x y
    else gridOf (threadRows (sideOf v) (zigzag v) stream) x y ^^ maskFn m x y) this hx hy

theorem placeGrid_reserved {v : Nat} (stream : List Byte) (m : BitVec 3) {x y : Nat} (hv : v ≤ 3) (hx : x < sideOf v)
    (hy : y < sideOf v) (hr : reserved v x y = true) : placeGrid v stream m x y = functionModule v m x y := by
  rw [placeGrid_apply stream m hv hx hy, if_pos hr]

/-! ### Data threading -/

@[simp] theorem length_setDark (rows : List Word) (x y : Nat) : (setDark rows x y).length = rows.length := by
  simp [setDark]

/-- Setting one module dark sets that module and no other (R75). -/
theorem gridOf_setDark {rows : List Word} {x y x' y' : Nat} (hx : x < 32) (hx' : x' < 32) (hy : y < rows.length) :
    gridOf (setDark rows x y) x' y' = (gridOf rows x' y' || decide (x' = x ∧ y' = y)) := by
  simp only [gridOf, setDark, List.getD_eq_getElem?_getD, List.getElem?_modify]
  by_cases h : y = y'
  · subst h
    rw [List.getElem?_eq_getElem hy]
    have h31 : 31 - x < 32 := by omega
    have : (31 - x = 31 - x') ↔ x' = x := by omega
    simp [BitVec.getLsbD_twoPow, h31, this]
  · cases hr : rows[y']? <;> simp [h, Ne.symm h]

/-- The threaded rows after the modules of `order`, whose stream indices start at `k`: a module is dark when it was, or when it is
some `order[i]` whose stream bit `k + i` is 1. -/
theorem gridOf_foldl_thread {stream : List Byte} (order : List (Nat × Nat)) (k : Nat) (rows : List Word) {x y : Nat}
    (ho : ∀ p ∈ order, p.1 < 32 ∧ p.2 < rows.length) (hx : x < 32) :
    gridOf ((order.zipIdx k).foldl
        (fun rows p => if streamBit stream p.2 then setDark rows p.1.1 p.1.2 else rows) rows) x y = true ↔
      gridOf rows x y = true ∨ ∃ i, order[i]? = some (x, y) ∧ streamBit stream (k + i) = true := by
  induction order generalizing k rows with
  | nil => simp
  | cons p order ih =>
    have hp := ho p (by simp)
    simp only [List.zipIdx_cons, List.foldl_cons]
    have hlen : (if streamBit stream k then setDark rows p.1 p.2 else rows).length = rows.length := by split <;> simp
    rw [ih _ _ (by rw [hlen]; exact fun q hq => ho q (by simp [hq]))]
    have hhead : (gridOf (if streamBit stream k then setDark rows p.1 p.2 else rows) x y = true) ↔
        gridOf rows x y = true ∨ (p = (x, y) ∧ streamBit stream k = true) := by
      cases hs : streamBit stream k with
      | false => simp
      | true =>
        rw [if_pos rfl, gridOf_setDark hp.1 hx hp.2]
        simp only [Bool.or_eq_true, decide_eq_true_eq, and_true, Prod.ext_iff, @eq_comm _ x, @eq_comm _ y]
    rw [hhead]
    constructor
    · rintro ((h | ⟨rfl, h⟩) | ⟨i, h1, h2⟩)
      · exact .inl h
      · exact .inr ⟨0, by simp, by simpa using h⟩
      · exact .inr ⟨i + 1, by simpa using h1, by rwa [Nat.add_assoc, Nat.add_comm 1 i] at h2⟩
    · rintro (h | ⟨i, h1, h2⟩)
      · exact .inl (.inl h)
      · cases i with
        | zero => exact .inl (.inr ⟨by simpa using h1, by simpa using h2⟩)
        | succ i => exact .inr ⟨i, by simpa using h1, by rwa [Nat.add_assoc, Nat.add_comm 1 i]⟩

/-- A module of the threaded grid is dark when it is some `order[i]` whose stream bit is 1 (R198, R199). -/
theorem gridOf_threadRows {n : Nat} {order : List (Nat × Nat)} {stream : List Byte} {x y : Nat} (hn : n ≤ 32)
    (ho : ∀ p ∈ order, p.1 < n ∧ p.2 < n) (hx : x < n) :
    gridOf (threadRows n order stream) x y = true ↔ ∃ i, order[i]? = some (x, y) ∧ streamBit stream i = true := by
  unfold threadRows
  rw [gridOf_foldl_thread order 0 _ (fun p hp => ⟨by have := (ho p hp).1; omega, by simpa using (ho p hp).2⟩) (by omega)]
  have : gridOf (List.replicate n 0#32) x y = false := by
    simp only [gridOf, List.getD_eq_getElem?_getD, List.getElem?_replicate]
    split <;> simp
  simp [this]

/-- With each module visited at most once, module `order[i]` of the threaded grid holds exactly stream bit `i` (R198). -/
theorem gridOf_threadRows_getElem {n : Nat} {order : List (Nat × Nat)} {stream : List Byte} {x y i : Nat} (hn : n ≤ 32)
    (ho : ∀ p ∈ order, p.1 < n ∧ p.2 < n) (hd : order.Nodup) (hi : order[i]? = some (x, y)) :
    gridOf (threadRows n order stream) x y = streamBit stream i := by
  have hm := ho _ (List.mem_of_getElem? hi)
  have := gridOf_threadRows (stream := stream) (y := y) hn ho hm.1
  cases hs : streamBit stream i with
  | true => exact this.mpr ⟨i, hi, hs⟩
  | false =>
    rw [← Bool.not_eq_true, this]
    rintro ⟨j, hj, hb⟩
    obtain ⟨hjl, hje⟩ := List.getElem?_eq_some_iff.mp hj
    obtain ⟨hil, hie⟩ := List.getElem?_eq_some_iff.mp hi
    have : j = i := (List.Nodup.getElem_inj_iff hd).mp (hje.trans hie.symm)
    subst this; simp_all

/-! ### The zig-zag order stays inside the grid -/

theorem pairColumns_bound {fuel right c : Nat} (h : c ∈ pairColumns fuel right) : 1 ≤ c ∧ c ≤ right := by
  induction fuel generalizing right with
  | zero => simp [pairColumns] at h
  | succ fuel ih =>
    simp only [pairColumns] at h
    split at h
    · split at h <;> rcases List.mem_cons.mp h with rfl | h
      · omega
      · have := ih h; omega
      · omega
      · have := ih h; omega
    · simp at h

theorem zigzag_mem_bound {v x y : Nat} (h : (x, y) ∈ zigzag v) :
    x < sideOf v ∧ y < sideOf v ∧ reserved v x y = false := by
  simp only [zigzag, List.mem_filter, List.mem_flatMap, pairModules, List.mem_range, List.mem_cons, List.not_mem_nil,
    or_false, Prod.mk.injEq, Bool.not_eq_true'] at h
  obtain ⟨⟨c, hc, vert, hv, h⟩, hr⟩ := h
  have := pairColumns_bound hc
  refine ⟨?_, ?_, hr⟩
  · omega
  · rcases h with ⟨-, rfl⟩ | ⟨-, rfl⟩ <;> split <;> omega

/-! ### A committed symbol -/

/-- The context registers of a version in {1, 2, 3}, from the invariant (R39 to R45). -/
theorem Context.consistent_of_version {c : Context} (h : c.consistent) (hv : 1 ≤ c.version.toNat) :
    c.size.toNat = sideOf c.version.toNat ∧ c.inlen.toNat ≤ capacity c.version.toNat ∧
      c.lpTotal.toNat = (layoutOf c.version.toNat).total ∧ c.lpData.toNat = (layoutOf c.version.toNat).data ∧
      c.lpEcc.toNat = (layoutOf c.version.toNat).ecc ∧ c.lpNblk.toNat = (layoutOf c.version.toNat).nblk := by
  rcases h with rfl | h
  · simp at hv
  · exact h.2

theorem version_le (c : Context) : c.version.toNat ≤ 3 := by have := c.version.isLt; omega

/-- After a symbol of the context's size is committed, BM holds the modules of its grid (R203). -/
theorem moduleAt_commitSymbol (s : State) {v x y : Nat} (stream : List Byte) (m : BitVec 3) (hv : v ≤ 3)
    (hs : s.ctx.size.toNat = sideOf v) (hx : x < sideOf v) (hy : y < sideOf v) :
    (s.commitSymbol v stream m).moduleAt x y = placeGrid v stream m x y := by
  have hl := length_placeRows v stream m
  rw [moduleAt_inside rfl (by rw [commitSymbol_ctx, hs]; exact hx) (by rw [commitSymbol_ctx, hs]; exact hy), commitSymbol_bitmap,
    row_writeBitmap s _ (by rw [hl]; exact hy) (by rw [hl]; unfold sideOf; omega)]
  rfl

/-- After a symbol of the context's size is committed, every bit of BM outside it is a free value (R203). -/
theorem moduleAt_commitSymbol_outside (s : State) {v x y : Nat} (stream : List Byte) (m : BitVec 3)
    (hs : s.ctx.size.toNat = sideOf v) (h : sideOf v ≤ x ∨ sideOf v ≤ y) :
    (s.commitSymbol v stream m).moduleAt x y = (Config.freeRow s.draws y).getLsbD (31 - x) := by
  rw [moduleAt_outside]
  · rfl
  · rw [commitSymbol_ctx, hs]; omega

/-- A committed symbol of the context's version is one that the invariant's DONE speaks of (R61 c). -/
theorem commitSymbol_holdsSymbol (s : State) (m : BitVec 3) (stream : List Byte) (hc : s.ctx.consistent)
    (hv : 1 ≤ s.ctx.version.toNat) (hl : stream.length = s.ctx.lpTotal.toNat) :
    (s.commitSymbol s.ctx.version.toNat stream m).holdsSymbol := by
  have hsz := (Context.consistent_of_version hc hv).1
  refine ⟨hv, stream, hl, fun x y hx hy => ?_⟩
  exact moduleAt_commitSymbol s stream m (version_le _) hsz (by rw [← hsz]; exact hx) (by rw [← hsz]; exact hy)

end Sys2Proof.Machine
end

