-- ==== Sys2Proof/Laws/ReedSolomon.lean ====
section
/-! SUPPORT. The field operations are linear over exclusive-or, and the lengths of the code's parts. -/

namespace Sys2Proof.Machine

theorem gfMulRound_xor (a a' b : Byte) (r r' : BitVec 9) (i : Nat) :
    gfMulRound (a ^^^ a') b (r ^^^ r') i = gfMulRound a b r i ^^^ gfMulRound a' b r' i := by
  have hs : (r ^^^ r') <<< 1 = r <<< 1 ^^^ r' <<< 1 := BitVec.shiftLeft_xor_distrib ..
  have hw : (a ^^^ a').setWidth 9 = a.setWidth 9 ^^^ a'.setWidth 9 := by simp
  simp only [gfMulRound, hs, hw, BitVec.getLsbD_xor]
  generalize r <<< 1 = u, r' <<< 1 = u', a.setWidth 9 = w, a'.setWidth 9 = w'
  cases u.getLsbD 8 <;> cases u'.getLsbD 8 <;> cases b.getLsbD i <;>
    simp only [Bool.xor_false, Bool.xor_true, Bool.not_false, Bool.not_true, if_true, if_false, Bool.false_eq_true] <;>
    ext j hj <;> simp only [BitVec.getElem_xor] <;>
    generalize u[j] = p1, u'[j] = p2, w[j] = p3, w'[j] = p4, (0x11D#9)[j] = p5 <;> revert p1 p2 p3 p4 p5 <;> decide

theorem gfMulRound_xor_right (a b b' : Byte) (r r' : BitVec 9) (i : Nat) :
    gfMulRound a (b ^^^ b') (r ^^^ r') i = gfMulRound a b r i ^^^ gfMulRound a b' r' i := by
  have hs : (r ^^^ r') <<< 1 = r <<< 1 ^^^ r' <<< 1 := BitVec.shiftLeft_xor_distrib ..
  simp only [gfMulRound, hs, BitVec.getLsbD_xor]
  generalize r <<< 1 = u, r' <<< 1 = u', a.setWidth 9 = w
  cases u.getLsbD 8 <;> cases u'.getLsbD 8 <;> cases b.getLsbD i <;> cases b'.getLsbD i <;>
    simp only [Bool.xor_false, Bool.xor_true, Bool.not_false, Bool.not_true, if_true, if_false, Bool.false_eq_true] <;>
    ext j hj <;> simp only [BitVec.getElem_xor] <;>
    generalize u[j] = p1, u'[j] = p2, w[j] = p3, (0x11D#9)[j] = p5 <;> revert p1 p2 p3 p5 <;> decide

theorem foldl_gfMulRound_xor (a a' b : Byte) (l : List Nat) (r r' : BitVec 9) :
    l.foldl (gfMulRound (a ^^^ a') b) (r ^^^ r') = l.foldl (gfMulRound a b) r ^^^ l.foldl (gfMulRound a' b) r' := by
  induction l generalizing r r' with
  | nil => rfl
  | cons i l ih => simp only [List.foldl_cons, gfMulRound_xor, ih]

theorem foldl_gfMulRound_xor_right (a b b' : Byte) (l : List Nat) (r r' : BitVec 9) :
    l.foldl (gfMulRound a (b ^^^ b')) (r ^^^ r') = l.foldl (gfMulRound a b) r ^^^ l.foldl (gfMulRound a b') r' := by
  induction l generalizing r r' with
  | nil => rfl
  | cons i l ih => simp only [List.foldl_cons, gfMulRound_xor_right, ih]

/-- Multiplication distributes over addition, which is exclusive-or (R140, R143). -/
theorem gfMul_xor_left (a a' b : Byte) : gfMul (a ^^^ a') b = gfMul a b ^^^ gfMul a' b := by
  have := foldl_gfMulRound_xor a a' b [7, 6, 5, 4, 3, 2, 1, 0] 0#9 0#9
  rw [show (0#9 ^^^ 0#9) = 0#9 from rfl] at this
  simp only [gfMul, this]; simp

theorem gfMul_xor_right (a b b' : Byte) : gfMul a (b ^^^ b') = gfMul a b ^^^ gfMul a b' := by
  have := foldl_gfMulRound_xor_right a b b' [7, 6, 5, 4, 3, 2, 1, 0] 0#9 0#9
  rw [show (0#9 ^^^ 0#9) = 0#9 from rfl] at this
  simp only [gfMul, this]; simp

@[simp] theorem gfMul_zero_left (b : Byte) : gfMul 0#8 b = 0#8 := by
  have := gfMul_xor_left 0#8 0#8 b
  simpa using this

@[simp] theorem gfMul_zero_right (a : Byte) : gfMul a 0#8 = 0#8 := by
  have := gfMul_xor_right a 0#8 0#8
  simpa using this

@[simp] theorem length_mulRoot (p : List Byte) (r : Byte) : (mulRoot p r).length = p.length + 1 := by
  simp [mulRoot]

@[simp] theorem length_generator (n : Nat) : (generator n).length = n + 1 := by
  induction n with
  | zero => rfl
  | succ n ih => simp only [generator, List.range_succ, List.foldl_append, List.foldl_cons, List.foldl_nil] at ih ⊢; simp [ih]

theorem length_rsStep {g r : List Byte} (d : Byte) (hr : r.length + 1 = g.length) : (rsStep g r d).length = r.length := by
  simp only [rsStep, List.length_zipWith, List.length_append, List.length_tail, List.length_singleton]
  omega

theorem length_foldl_rsStep {g : List Byte} (d r : List Byte) (hr : r.length + 1 = g.length) :
    (d.foldl (rsStep g) r).length = r.length := by
  induction d generalizing r with
  | nil => rfl
  | cons b d ih => rw [List.foldl_cons, ih _ (by rw [length_rsStep b hr, hr]), length_rsStep b hr]

@[simp] theorem length_rsRemainder (d : List Byte) (n : Nat) : (rsRemainder d n).length = n := by
  simp [rsRemainder, length_foldl_rsStep]

end Sys2Proof.Machine
end

