-- ==== Sys2Proof/Laws/Exec.lean ====
section
/-! SUPPORT. What each command does when it answers a next state, said once per command, so that no later proof unfolds a meaning. -/

namespace Sys2Proof.Machine

theorem next_eq_next {a t : State} : (Host.Outcome.next a : Result) = .next t ↔ t = a :=
  ⟨fun h => by cases h; rfl, fun h => by rw [h]⟩

/-- Every next state of EVALUATE: the whole context replaced, or VALID and EVRES cleared. -/
theorem execEvaluate_next {ver : BitVec 4} {len : BitVec 16} {s t : State} (h : execEvaluate ver len s = .next t) :
    (fits ver.toNat len.toNat = true ∧
        t = { s with ctx := contextFor s.dataAddr ver len, status := s.status.evaluated }) ∨
      (fits ver.toNat len.toNat = false ∧ t = { s with status := s.status.rejected }) := by
  unfold execEvaluate at h
  split at h
  · cases h; exact .inl ⟨by assumption, rfl⟩
  · cases h; exact .inr ⟨by simp_all, rfl⟩

/-- The next state of the assembler: the context is valid, the input is admitted, and the data codewords are written. -/
theorem assembleFor_next {word : Word} {s t : State} :
    assembleFor word s = .next t ↔
      s.status.valid = true ∧ ∃ input, s.hostMem.readBytes s.ctx.addr.toNat s.ctx.inlen.toNat = .ok input ∧
        t = s.writeCodewords 0 (dataCodewords s.ctx.lpData.toNat input) := by
  unfold assembleFor
  rw [requireValid_eq_next]
  cases s.hostMem.readBytes s.ctx.addr.toNat s.ctx.inlen.toNat <;> (simp; try exact fun _ => eq_comm)

/-- The next state of the coder: the data codewords were written, and the correction codewords follow them. -/
theorem rsEncodeFor_next {word : Word} {s t : State} :
    rsEncodeFor word s = .next t ↔
      s.status.valid = true ∧ s.writtenBelow s.ctx.lpData.toNat ∧
        t = s.writeCodewords s.ctx.lpData.toNat
          (rsRemainder (s.codewords s.ctx.lpData.toNat) s.ctx.lpEcc.toNat) := by
  unfold rsEncodeFor
  rw [requireValid_eq_next, requireWritten_eq_next, next_eq_next]

/-- The next state of PLACE. -/
theorem execPlace_next {m : BitVec 3} {s t : State} :
    execPlace m s = .next t ↔
      s.status.valid = true ∧ s.writtenBelow s.ctx.lpTotal.toNat ∧
        t = s.commitSymbol s.ctx.version.toNat (s.codewords s.ctx.lpTotal.toNat) m := by
  unfold execPlace
  rw [requireValid_eq_next, requireWritten_eq_next, next_eq_next]

/-- The next state of SCORE. -/
theorem execScore_next {s t : State} :
    execScore s = .next t ↔
      s.status.done = true ∧ t = { s with score := scoreOf (penaltyOf s.ctx.size.toNat s.moduleAt) } := by
  unfold execScore
  rw [requireDone_eq_next, next_eq_next]

/-- The next state of the selector. -/
theorem selectFor_next {word : Word} {s t : State} :
    selectFor word s = .next t ↔
      s.status.valid = true ∧ s.writtenBelow s.ctx.lpTotal.toNat ∧
        t = s.commitWinner s.ctx.version.toNat (s.codewords s.ctx.lpTotal.toNat) := by
  unfold selectFor
  rw [requireValid_eq_next, requireWritten_eq_next, next_eq_next]

/-- The next state of ENCODE: that of its three parts, each run for the word of ENCODE. -/
theorem execEncode_next {s t : State} :
    execEncode s = .next t ↔
      ∃ a b, assembleFor (encode .encode) s = .next a ∧ rsEncodeFor (encode .encode) a = .next b ∧
        selectFor (encode .encode) b = .next t := by
  unfold execEncode
  rw [requireValid_eq_next]
  simp only [andThen_eq_next]
  constructor
  · rintro ⟨-, a, ha, b, hb, ht⟩; exact ⟨a, b, ha, hb, ht⟩
  · rintro ⟨a, b, ha, hb, ht⟩; exact ⟨(assembleFor_next.mp ha).1, a, ha, b, hb, ht⟩

/-- The next state of GET_MODULE. -/
theorem execGetModule_next {x y : BitVec 5} {s t : State} :
    execGetModule x y s = .next t ↔
      s.status.done = true ∧ s.ctx.contains x y = true ∧
        t = { s with status := s.status.returned (s.moduleAt x.toNat y.toNat) } := by
  unfold execGetModule
  rw [requireDone_eq_next]
  cases s.ctx.contains x y <;> (simp; try exact fun _ => eq_comm)

end Sys2Proof.Machine
end

