-- ==== Sys2Proof/Laws/FrontEnd.lean ====
section
/-! SUPPORT. The lengths of the assembler's bitstream and of its codewords. -/

namespace Sys2Proof.Machine

@[simp] theorem length_bitsOf (n v : Nat) : (bitsOf n v).length = n := by simp [bitsOf]

@[simp] theorem length_segmentBits (input : List Byte) : (segmentBits input).length = 8 * input.length + 12 := by
  simp [segmentBits, List.length_flatMap]; omega

/-- The terminator and the zeros after it fill the byte that the segment leaves half full (R120, R121). -/
theorem length_terminatedBits (dataCount : Nat) (input : List Byte) :
    (terminatedBits dataCount input).length = 8 * (input.length + 2) := by
  simp [terminatedBits]; omega

@[simp] theorem length_packBits (bits : List Bool) : (packBits bits).length = bits.length / 8 := by simp [packBits]

@[simp] theorem length_padCodewords (count : Nat) : (padCodewords count).length = count := by simp [padCodewords]

/-- The data codewords fill exactly their places (R122, R125). -/
theorem length_dataCodewords {dataCount : Nat} {input : List Byte} (h : input.length + 2 ≤ dataCount) :
    (dataCodewords dataCount input).length = dataCount := by
  simp [dataCodewords, length_terminatedBits]; omega

/-- The capacity of a version leaves two places of its data codewords for the segment header and the terminator (R9, R112). -/
theorem capacity_add_two_le (v : Nat) : capacity v + 2 ≤ (layoutOf v).data ∨ capacity v = 0 := by
  unfold capacity layoutOf; split <;> simp

end Sys2Proof.Machine
end

