-- ==== Sys2Proof/Laws/Penalty.lean ====
section
/-! SUPPORT. Line by line, what the penalty functions give and how large they are. -/

namespace Sys2Proof.Machine

/-! ### Runs -/

theorem runPenalty_le (k : Nat) : runPenalty k ≤ k - 2 := by
  unfold runPenalty; split <;> omega

/-- A block of equal modules that the next module differs from is one maximal run (R232). -/
theorem splitBy_replicate_append (b : Bool) (k : Nat) (rest : List Bool) (hk : 1 ≤ k) (h : rest.head? ≠ some b) :
    (List.replicate k b ++ rest).splitBy (· == ·) = List.replicate k b :: rest.splitBy (· == ·) := by
  have hne : List.replicate k b ≠ [] := by simp; omega
  rw [List.splitBy_append, List.splitBy_of_isChain hne]
  · rfl
  · exact List.isChain_replicate_of_rel _ (by simp)
  · intro x hx y hy
    have : x = b := (List.mem_replicate.mp (List.mem_of_mem_getLast? hx)).2
    subst this
    rw [beq_eq_false_iff_ne]
    rintro rfl
    exact h hy

theorem sum_runPenalty_le (runs : List (List Bool)) :
    (runs.map fun r => runPenalty r.length).sum ≤ runs.flatten.length - 2 := by
  induction runs with
  | nil => simp
  | cons r runs ih =>
    simp only [List.map_cons, List.sum_cons, List.flatten_cons, List.length_append]
    have := runPenalty_le r.length
    omega

/-- The runs of a line partition it, so N1 of the line is at most its length less 2. -/
theorem lineRuns_le (line : List Bool) : lineRuns line ≤ line.length - 2 := by
  have := sum_runPenalty_le (line.splitBy (· == ·))
  rwa [List.flatten_splitBy] at this

/-! ### Windows -/

theorem lineWindows_le (line : List Bool) : lineWindows line ≤ line.length - 10 := by
  have := List.countP_le_length (p := fun i => finderLike ((line.drop i).take 11)) (l := List.range (line.length - 10))
  simpa [lineWindows] using this

/-! ### Lines of a grid -/

theorem length_of_mem_gridLines {n : Nat} {g : Grid} {line : List Bool} (h : line ∈ gridLines n g) : line.length = n := by
  simp only [gridLines, List.mem_append, List.mem_map, List.mem_range] at h
  rcases h with ⟨y, -, rfl⟩ | ⟨y, -, rfl⟩ <;> simp

@[simp] theorem length_gridLines (n : Nat) (g : Grid) : (gridLines n g).length = 2 * n := by
  simp [gridLines]; omega

/-- A sum is at most its number of terms times a bound on each. -/
theorem sum_map_le {α : Type} (l : List α) (f : α → Nat) (b : Nat) (h : ∀ a ∈ l, f a ≤ b) : (l.map f).sum ≤ l.length * b := by
  have := List.sum_le_card_nsmul (l.map f) b (by simpa using h)
  simpa using this

theorem darkCount_le (n : Nat) (g : Grid) : darkCount n g ≤ n * n := by
  have := sum_map_le (List.range n) (fun y => (List.range n).countP fun x => g x y) n
    (fun y _ => by simpa using List.countP_le_length (l := List.range n) (p := fun x => g x y))
  simpa [darkCount] using this

/-! ### The penalty reads the symbol's modules only -/

theorem gridLines_congr {n : Nat} {g g' : Grid} (h : ∀ x y, x < n → y < n → g x y = g' x y) :
    gridLines n g = gridLines n g' := by
  unfold gridLines
  congr 1 <;>
  · refine List.map_congr_left fun a ha => List.map_congr_left fun b hb => ?_
    first | exact h _ _ (List.mem_range.mp hb) (List.mem_range.mp ha) | exact h _ _ (List.mem_range.mp ha) (List.mem_range.mp hb)

theorem equalBlocks_congr {n : Nat} {g g' : Grid} (h : ∀ x y, x < n → y < n → g x y = g' x y) :
    equalBlocks n g = equalBlocks n g' := by
  unfold equalBlocks
  congr 1
  refine List.map_congr_left fun y hy => List.countP_congr fun x hx => ?_
  have hx := List.mem_range.mp hx
  have hy := List.mem_range.mp hy
  rw [h x y (by omega) (by omega), h (x + 1) y (by omega) (by omega), h x (y + 1) (by omega) (by omega),
    h (x + 1) (y + 1) (by omega) (by omega)]

theorem darkCount_congr {n : Nat} {g g' : Grid} (h : ∀ x y, x < n → y < n → g x y = g' x y) :
    darkCount n g = darkCount n g' := by
  unfold darkCount
  congr 1
  refine List.map_congr_left fun y hy => List.countP_congr fun x hx => ?_
  rw [h x y (List.mem_range.mp hx) (List.mem_range.mp hy)]

/-- Two grids with the same modules inside the symbol have the same penalty (R231). -/
theorem penaltyOf_congr {n : Nat} {g g' : Grid} (h : ∀ x y, x < n → y < n → g x y = g' x y) :
    penaltyOf n g = penaltyOf n g' := by
  simp [penaltyOf, penaltyN1, penaltyN2, penaltyN3, penaltyN4, gridLines_congr h, equalBlocks_congr h, darkCount_congr h]

/-! ### The winner -/

/-- `firstMinimum` keeps the best seen so far unless a later total is strictly lower, and then keeps the first lowest (R238). -/
theorem firstMinimum_spec (best bestTotal m : Nat) (rest : List Nat) :
    ∃ w, (firstMinimum best bestTotal m rest = best ∧ w = bestTotal ∧ (∀ t ∈ rest, bestTotal ≤ t)) ∨
      (∃ i, firstMinimum best bestTotal m rest = m + i ∧ rest[i]? = some w ∧ w < bestTotal ∧ (∀ t ∈ rest, w ≤ t) ∧
        ∀ j t, j < i → rest[j]? = some t → w < t) := by
  induction rest generalizing best bestTotal m with
  | nil => exact ⟨bestTotal, .inl ⟨rfl, rfl, by simp⟩⟩
  | cons t rest ih =>
    simp only [firstMinimum]
    split
    · rename_i hlt
      obtain ⟨w, ⟨h, rfl, ha⟩ | ⟨i, h, hw, hl, ha, hj⟩⟩ := ih m t (m + 1)
      · exact ⟨w, .inr ⟨0, by simpa using h, by simp, hlt, by simpa using ha, by simp⟩⟩
      · refine ⟨w, .inr ⟨i + 1, by rw [h]; omega, by simpa using hw, by omega, ?_, ?_⟩⟩
        · intro u hu; rcases List.mem_cons.mp hu with rfl | hu
          · omega
          · exact ha u hu
        · intro j u hji hu
          cases j with
          | zero => simp at hu; omega
          | succ j => exact hj j u (by omega) (by simpa using hu)
    · rename_i hge
      obtain ⟨w, ⟨h, rfl, ha⟩ | ⟨i, h, hw, hl, ha, hj⟩⟩ := ih best bestTotal (m + 1)
      · refine ⟨w, .inl ⟨h, rfl, ?_⟩⟩
        intro u hu; rcases List.mem_cons.mp hu with rfl | hu
        · omega
        · exact ha u hu
      · refine ⟨w, .inr ⟨i + 1, by rw [h]; omega, by simpa using hw, hl, ?_, ?_⟩⟩
        · intro u hu; rcases List.mem_cons.mp hu with rfl | hu
          · omega
          · exact ha u hu
        · intro j u hji hu
          cases j with
          | zero => simp at hu; omega
          | succ j => exact hj j u (by omega) (by simpa using hu)

/-- The winner is an index of the list, with a least total, and every lower index has a higher total (R238). -/
theorem winner_spec {totals : List Nat} (h : totals ≠ []) :
    ∃ w, totals[winner totals]? = some w ∧ (∀ t ∈ totals, w ≤ t) ∧ ∀ j t, j < winner totals → totals[j]? = some t → w < t := by
  cases totals with
  | nil => exact absurd rfl h
  | cons t rest =>
    simp only [winner]
    obtain ⟨w, ⟨h, rfl, ha⟩ | ⟨i, h, hw, hl, ha, hj⟩⟩ := firstMinimum_spec 0 t 1 rest
    · exact ⟨w, by simp [h], by simpa using ha, by simp [h]⟩
    · refine ⟨w, by rw [h, Nat.add_comm, List.getElem?_cons_succ, hw], ?_, ?_⟩
      · intro u hu; rcases List.mem_cons.mp hu with rfl | hu
        · omega
        · exact ha u hu
      · rw [h]; intro j u hji hu
        cases j with
        | zero => simp at hu; omega
        | succ j => exact hj j u (by omega) (by simpa using hu)

@[simp] theorem length_candidates (v : Nat) (stream : List Byte) : (candidates v stream).length = 8 := by simp [candidates]

theorem getElem?_candidates (v : Nat) (stream : List Byte) {m : Nat} (h : m < 8) :
    (candidates v stream)[m]? = some (candidatePenalty v stream (BitVec.ofNat 3 m)) := by
  simp [candidates, h]

theorem winningMask_toNat (v : Nat) (stream : List Byte) :
    (winningMask v stream).toNat = winner ((candidates v stream).map penaltyTotal) := by
  obtain ⟨w, h, -, -⟩ := winner_spec (totals := (candidates v stream).map penaltyTotal) (by simp [candidates])
  have : winner ((candidates v stream).map penaltyTotal) < 8 := by
    have := (List.getElem?_eq_some_iff.mp h).1; simpa using this
  simp only [winningMask, BitVec.toNat_ofNat]; omega

/-- No candidate's total is below the winner's, and no lower mask's equals it (R238). -/
theorem winningMask_spec (v : Nat) (stream : List Byte) (m : Nat) (hm : m < 8) :
    (penaltyTotal (candidatePenalty v stream (winningMask v stream)) ≤
      penaltyTotal (candidatePenalty v stream (BitVec.ofNat 3 m))) ∧
    (m < (winningMask v stream).toNat →
      penaltyTotal (candidatePenalty v stream (winningMask v stream)) <
        penaltyTotal (candidatePenalty v stream (BitVec.ofNat 3 m))) := by
  obtain ⟨w, h, h1, h2⟩ := winner_spec (totals := (candidates v stream).map penaltyTotal) (by simp [candidates])
  have hlt : winner ((candidates v stream).map penaltyTotal) < 8 := by
    have := (List.getElem?_eq_some_iff.mp h).1; simpa using this
  have hw : w = penaltyTotal (candidatePenalty v stream (winningMask v stream)) := by
    rw [List.getElem?_map, getElem?_candidates v stream hlt] at h
    simpa [winningMask] using h.symm
  have hg : ((candidates v stream).map penaltyTotal)[m]? =
      some (penaltyTotal (candidatePenalty v stream (BitVec.ofNat 3 m))) := by
    rw [List.getElem?_map, getElem?_candidates v stream hm]; rfl
  rw [← hw]
  exact ⟨h1 _ (List.mem_of_getElem? hg), fun hlt => h2 m _ (by rw [← winningMask_toNat]; exact hlt) hg⟩

theorem getElem?_pen_commitWinner (s : State) (v : Nat) (stream : List Byte) (m : Nat) (hm : m < 8) :
    (s.commitWinner v stream).pen[m]? =
      some (BitVec.ofNat 16 (penaltyTotal (candidatePenalty v stream (BitVec.ofNat 3 m)))) := by
  rw [commitWinner_pen, getElem?_writeFrom, if_pos (by simp; omega), List.getElem?_map, Nat.sub_zero,
    getElem?_candidates v stream hm]
  rfl

end Sys2Proof.Machine
end

