-- ==== Sys2Proof/Laws/PerInstr.lean ====
section
/-! SUPPORT. Statements about every instruction, one lemma per constructor. -/

/-- The bits that a row of the opcode map fixes, as the encoder sets them: the word of a command has its opcode in bits [3:0] and
agrees with the row of R96 at index OP; the word of a well-formed ILLEGAL term is accepted by no row. -/
def Sys2Proof.Laws.FixedBits.Statement (i : Sys2Proof.Instr) : Prop :=
  Sys2Proof.WellFormed i →
    (Sys2Proof.encode i).extractLsb' 0 4 = i.op ∧
      match i with
      | .illegal w => Sys2Proof.legalWord w = false
      | _ => ∃ r, Sys2Proof.opTable[i.op.toNat]? = some r ∧ r.accepts (Sys2Proof.encode i) = true

namespace Sys2Proof.Laws.FixedBits

theorem and_mask_formatE (len : BitVec 16) (ver : BitVec 4) :
    formatE len ver 0x1#4 &&& 0x0000F0FF#32 = 0x1#32 := by
  ext j hj
  simp only [formatE, BitVec.getElem_and, BitVec.getElem_append]
  interval_cases j <;> simp

theorem and_mask_formatXY (y x : BitVec 5) :
    formatXY y x 0x3#4 &&& 0xFFE0E0FF#32 = 0x3#32 := by
  ext j hj
  simp only [formatXY, BitVec.getElem_and, BitVec.getElem_append]
  interval_cases j <;> simp

theorem nop : Statement .nop := fun _ => ⟨by decide, _, rfl, by decide⟩

theorem evaluate (ver : BitVec 4) (len : BitVec 16) : Statement (.evaluate ver len) := by
  refine fun _ => ⟨?_, _, rfl, ?_⟩
  · ext j hj
    simp only [Sys2Proof.encode, formatE, Instr.op, BitVec.getElem_extractLsb', BitVec.getLsbD_append]
    interval_cases j <;> simp
  · simpa [OpRow.accepts, Sys2Proof.encode] using and_mask_formatE len ver

theorem encode : Statement .encode := fun _ => ⟨by decide, _, rfl, by decide⟩

theorem getModule (x y : BitVec 5) : Statement (.getModule x y) := by
  refine fun _ => ⟨?_, _, rfl, ?_⟩
  · ext j hj
    simp only [Sys2Proof.encode, formatXY, Instr.op, BitVec.getElem_extractLsb', BitVec.getLsbD_append]
    interval_cases j <;> simp
  · simpa [OpRow.accepts, Sys2Proof.encode] using and_mask_formatXY y x

theorem assemble : Statement .assemble := fun _ => ⟨by decide, _, rfl, by decide⟩
theorem rsEncode : Statement .rsEncode := fun _ => ⟨by decide, _, rfl, by decide⟩

theorem place (m : BitVec 3) : Statement (.place m) :=
  fun _ => ⟨by revert m; decide, _, rfl, by revert m; decide⟩

theorem score : Statement .score := fun _ => ⟨by decide, _, rfl, by decide⟩
theorem select : Statement .select := fun _ => ⟨by decide, _, rfl, by decide⟩

theorem formatWord (m : BitVec 3) : Statement (.formatWord m) :=
  fun _ => ⟨by revert m; decide, _, rfl, by revert m; decide⟩

theorem illegal (w : Word) : Statement (.illegal w) :=
  fun h => ⟨rfl, by simpa [WellFormed, Instr.wellFormed] using h⟩

end Sys2Proof.Laws.FixedBits
end

