-- ==== Sys2Proof/Tests/Slice0.lean ====
section
/-! SUPPORT. Tests with the expected values of spec/95_test_vectors.md, and for every statement with hypotheses a witness that meets
all of them together. -/

namespace Sys2Proof.Tests

open Sys2Proof Sys2Proof.Machine

/-! ### Small states -/

/-- After a successful EVALUATE of version `v` and the length of `input`, with `input` at 0x1000 and every codeword `0x11`. -/
def ready (v : BitVec 4) (input : List Byte) : State :=
  { State.reset with
    status := ⟨true, false, true, false, false⟩
    dataAddr := 0x1000#32
    ctx := contextFor 0x1000#32 v (BitVec.ofNat 16 input.length)
    hostMem := input.zipIdx.map fun p => (0x1000 + p.2, p.1)
    cw := Vector.replicate 70 (some 0x11#8) }

/-- `ready` with no codeword written. -/
def fresh (v : BitVec 4) (input : List Byte) : State := { ready v input with cw := Vector.replicate 70 none }

/-- `ready` after PLACE of mask `m`. -/
def shown (v : BitVec 4) (m : BitVec 3) : State :=
  (ready v []).commitSymbol v.toNat (List.replicate (layoutOf v.toNat).total 0x11#8) m

/-- A state with these host events pending. -/
def queued (s : State) (es : List HostEvent) : State := { s with pending := es }

/-- What `f` reads from the next state, if there is one. -/
def read {α : Type} (r : Result) (f : State → α) : Option α :=
  match r with
  | .next t => some (f t)
  | _ => none

theorem inv_of_context {s : State} {v : BitVec 4} {input : List Byte} (hs : s = ready v input ∨ s = fresh v input)
    (hv : v.toNat ∈ [1, 2, 3]) (hl : input.length ≤ capacity v.toNat) : Inv s := by
  have hc : (contextFor 0x1000#32 v (BitVec.ofNat 16 input.length)).consistent ∧
      1 ≤ (contextFor 0x1000#32 v (BitVec.ofNat 16 input.length)).version.toNat := by
    unfold Context.consistent
    simp only [List.mem_cons, List.not_mem_nil, or_false] at hv
    rcases hv with h | h | h <;>
      (rw [h] at hl; simp only [capacity] at hl; simp [contextFor, h, layoutOf, sideOf, capacity]; omega)
  have hw : (input.zipIdx.map fun p => ((0x1000 + p.2, p.1) : Host.Cell)).Pairwise (fun p q => p.1 < q.1) := by
    rw [List.pairwise_map, List.pairwise_iff_getElem]
    intro i j hi hj hij
    simp; omega
  have hb : ∀ c ∈ (input.zipIdx.map fun p => ((0x1000 + p.2, p.1) : Host.Cell)), c.1 < 2 ^ Config.addrW := by
    intro c hc
    obtain ⟨p, hp, rfl⟩ := List.mem_map.mp hc
    have hi : p.2 < input.length := by
      have := List.mem_zipIdx hp; omega
    have : capacity v.toNat ≤ 53 := by
      simp only [List.mem_cons, List.not_mem_nil, or_false] at hv
      rcases hv with h | h | h <;> simp [h, capacity]
    simp [Config.addrW]; omega
  have ht : (BitVec.ofNat 2 Config.tier.val).toNat < 3 := by
    have := Config.tier.isLt; simp; omega
  rcases hs with rfl | rfl <;>
    exact ⟨⟨hw, hb⟩, ht, hc.1, fun _ => hc.2, rfl, (nomatch ·), .inl rfl, rfl⟩

theorem inv_shown {v : BitVec 4} (m : BitVec 3) (hv : v.toNat ∈ [1, 2, 3]) : Inv (shown v m) := by
  have h := inv_of_context (s := ready v []) (.inl rfl) hv (Nat.zero_le _)
  have hver : (ready v []).ctx.version.toNat = v.toNat := by
    simp only [List.mem_cons, List.not_mem_nil, or_false] at hv
    show (contextFor _ v _).version.toNat = _
    simp only [contextFor, BitVec.toNat_setWidth]; omega
  have hd := commitSymbol_holdsSymbol (ready v []) m (List.replicate (layoutOf v.toNat).total 0x11#8) h.context
    (h.valid rfl) (by
      have := (Context.consistent_of_version h.context (h.valid rfl)).2.2.1
      rw [this, hver]; simp)
  rw [hver] at hd
  exact ⟨h.memory, h.tier, h.context, h.valid, h.evres, fun _ => hd, .inr ⟨m, rfl⟩, h.score⟩

theorem written_ready (v : BitVec 4) (input : List Byte) {n : Nat} (hn : n ≤ 70) : (ready v input).writtenBelow n := by
  intro i hi
  have : i < 70 := by omega
  simp [State.codeword, ready, this]

/-! ### Well-formedness and decoding -/

theorem test_wellFormed_refuses_command_words :
    ¬ WellFormed (.illegal 0x00000000#32) ∧ ¬ WellFormed (.illegal 0x00110101#32) ∧ ¬ WellFormed (.illegal 0x001C1C03#32) ∧
    ¬ WellFormed (.illegal 0x00000706#32) ∧ ¬ WellFormed (.illegal 0x00000509#32) ∧ ¬ WellFormed (.illegal 0x00000008#32) := by
  decide

theorem test_wellFormed_accepts : WellFormed .encode ∧ WellFormed (.evaluate 15#4 65535#16) ∧ WellFormed (.illegal 0xA#32) := by
  decide

/-- Section 2.1; each word is written out from its format, `LEN 0000 VER 0000 OP` for EVALUATE (R92). -/
theorem test_decode_evaluate :
    decode 0b00000000000100010000000100000001#32 = .evaluate 1#4 17#16 ∧
    decode 0b00000000000000000001000000000001#32 = .illegal 0x00001001#32 := by decide

theorem test_decode_nop : decode 0b00000000000000000000000000000000#32 = .nop := by decide
theorem test_decode_encode : decode 0b00000000000000000000000000000010#32 = .encode := by decide

/-- Format XY, `Y` at [20:16] and `X` at [12:8] (R94). -/
theorem test_decode_getModule : decode 0b00000000000011010000100000000011#32 = .getModule 8#5 13#5 := by decide

theorem test_decode_assemble : decode 0b00000000000000000000000000000100#32 = .assemble := by decide
theorem test_decode_rsEncode : decode 0b00000000000000000000000000000101#32 = .rsEncode := by decide

/-- Format M, `M` at [10:8] (R93). -/
theorem test_decode_place : decode 0b00000000000000000000010100000110#32 = .place 5#3 := by decide

theorem test_decode_score : decode 0b00000000000000000000000000000111#32 = .score := by decide
theorem test_decode_select : decode 0b00000000000000000000000000001000#32 = .select := by decide
theorem test_decode_formatWord : decode 0b00000000000000000000010100001001#32 = .formatWord 5#3 := by decide

/-- Section 2.1: a reserved OP, and ENCODE with `w[4] = 1`. -/
theorem test_decode_illegal :
    decode 0b00000000000000000000000000001111#32 = .illegal 0xF#32 ∧
    decode 0b00000000000000000000000000010010#32 = .illegal 0x12#32 := by decide

/-! ### EVALUATE and ASSEMBLE -/

/-- Section 1.1: the capacity boundary of version 3. -/
theorem test_evaluate_at_capacity :
    read (exec (decode 0x00350301#32) State.reset) (fun t => (t.status.toWord, t.ctx.size, t.ctx.lpTotal, t.ctx.inlen)) =
      some (0x5#32, 29#5, 70#7, 53#6) := by decide

/-- Section 2.2: a failed EVALUATE leaves the context, and clears VALID and EVRES only. -/
theorem test_evaluate_over_capacity :
    read (exec (decode 0x00120101#32) (ready 3#4 [])) (fun t => (t.status.toWord, t.ctx.size, t.ctx.lpTotal, t.ctx.addr)) =
      some (0x0#32, 29#5, 70#7, 0x1000#32) := by decide

/-- Section 2.3: version 2, "qr123". -/
theorem test_assemble_qr123 :
    dataCodewords 34 [0x71, 0x72, 0x31, 0x32, 0x33] =
      [0x40, 0x57, 0x17, 0x23, 0x13, 0x23, 0x30, 0xEC, 0x11, 0xEC, 0x11, 0xEC, 0x11, 0xEC, 0x11, 0xEC, 0x11, 0xEC, 0x11, 0xEC,
        0x11, 0xEC, 0x11, 0xEC, 0x11, 0xEC, 0x11, 0xEC, 0x11, 0xEC, 0x11, 0xEC, 0x11, 0xEC] := by decide +kernel

/-- Section 2.3: version 1, 17 bytes `FF`: no pad codeword, and the last codeword is `F0`; the codeword after it is as before. -/
theorem test_assemble_full :
    read (exec .assemble (ready 1#4 (List.replicate 17 0xFF#8))) (fun t => [0, 1, 17, 18, 19].map t.codeword) =
      some [some 0x41#8, some 0x1F#8, some 0xFF#8, some 0xF0#8, some 0x11#8] := by decide +kernel

/-! ### The Reed–Solomon encoder -/

/-- Section 2.4. -/
theorem test_gfMul :
    gfMul 0x02 0x80 = 0x1D ∧ gfMul 0xFF 0xFF = 0xE2 ∧ gfMul 0x53 0xCA = 0x8F ∧ gfInv 0x53 = some 0x8C ∧ gfExp 255 = 0x01 := by
  decide +kernel

/-- Section 2.5: version 2 "qr123", `n = 10`; only the coder's entries change. -/
theorem test_rsRemainder_qr123 :
    rsRemainder
        [0x40, 0x57, 0x17, 0x23, 0x13, 0x23, 0x30, 0xEC, 0x11, 0xEC, 0x11, 0xEC, 0x11, 0xEC, 0x11, 0xEC, 0x11, 0xEC, 0x11, 0xEC,
          0x11, 0xEC, 0x11, 0xEC, 0x11, 0xEC, 0x11, 0xEC, 0x11, 0xEC, 0x11, 0xEC, 0x11, 0xEC] 10 =
      [0x20, 0x41, 0x72, 0xFB, 0x8E, 0xDA, 0x50, 0x38, 0xAC, 0x4A] := by decide +kernel

/-! ### Placement -/

/-- Section 2.7.2: rows 1 and 4 of masks 3, 5, 6 and 7. -/
theorem test_maskFn :
    (List.range 6).map (maskFn 3#3 · 1) = [false, false, true, false, false, true] ∧
    (List.range 6).map (maskFn 5#3 · 4) = [true, false, false, true, false, false] ∧
    (List.range 6).map (maskFn 6#3 · 4) = [true, false, true, true, false, true] ∧
    (List.range 6).map (maskFn 7#3 · 4) = [true, true, true, false, false, false] := by decide

/-- Section 2.7.3, version 2: passing the alignment pattern, and the first remainder bit's pair. -/
theorem test_zigzag_alignment :
    [0, 71, 72, 116, 120, 358].map (fun i => (zigzag 2)[i]?) =
      [some (24, 24), some (19, 21), some (20, 15), some (15, 20), some (15, 16), some (0, 16)] := by decide +kernel

/-- Section 2.8.1, version 1 'A': rows 0, 9 and 20 of the mask 0 symbol. -/
theorem test_place_rows :
    [0, 9, 20].map (fun y => (placeRows 1
        [0x40, 0x14, 0x10, 0xEC, 0x11, 0xEC, 0x11, 0xEC, 0x11, 0xEC, 0x11, 0xEC, 0x11, 0xEC, 0x11, 0xEC, 0x11, 0xEC, 0x11,
          0x52, 0x4B, 0xB5, 0x3B, 0xAF, 0x8D, 0xF1] 0#3)[y]?) =
      [some 0xFE5BF800#32, some 0xB0823000#32, some 0xFEEAB800#32] := by decide +kernel

/-- Section 2.7.1. -/
theorem test_formatWord :
    read (exec (decode 0x00000509#32) State.reset) (·.fmt) = some 0x6318#15 := by decide

/-- Section 2.8.1 and program P1: ENCODE of 'A' gives PEN, the winner, its last row word and the last correction codeword. -/
theorem test_encode_A :
    read (exec .encode (fresh 1#4 [0x41#8])) (fun t =>
        (t.maskSel, t.pen.toList.map BitVec.toNat, t.bitmap.rows[20], t.codeword 25)) =
      some (0#3, [297, 563, 420, 388, 453, 554, 639, 375], 0xFEEAB800#32, some 0xF1#8) := by decide +kernel

/-! ### Penalties -/

/-- The modules of section 2.8.1, winner rows. -/
def symbolA : List Word :=
  [0xFE5BF800, 0x82720800, 0xBADAE800, 0xBA52E800, 0xBA2AE800, 0x820A0800, 0xFEABF800, 0x00D80000, 0xEFF62000, 0xB0823000,
    0x5E688800, 0x58C22000, 0x368AA800, 0x00955000, 0xFEB77800, 0x82FDC000, 0xBAD76800, 0xBA623000, 0xBAC88800, 0x82823000,
    0xFEEAB800]

/-- Section 2.8.1: the four terms of the winner. -/
theorem test_penalty_symbolA : penaltyOf 21 (gridOf symbolA) = ⟨167, 90, 40, 0⟩ := by decide +kernel

/-- Section 2.6: maximal runs, and the two overlapping windows. -/
theorem test_penalty_lines :
    lineRuns (List.replicate 5 true ++ List.replicate 5 false ++ List.replicate 5 true) = 9 ∧
    lineRuns (List.replicate 21 true) = 19 ∧
    lineWindows [false, false, false, false, true, false, true, true, true, false, true, false, false, false, false] = 2 := by
  decide +kernel

/-- Section 2.8.1 and 2.8.3: the winners of two PEN tables. -/
theorem test_winner :
    winner [297, 563, 420, 388, 453, 554, 639, 375] = 0 ∧ winner [610, 532, 573, 435, 636, 564, 594, 554] = 3 := by decide

/-- After an EVALUATE that succeeds, DONE is 0 and no bit of BM has a defined value (R52, R271): every row word is a free value. -/
theorem test_bitmap_open_after_evaluate :
    read (exec (.evaluate 1#4 0#16) (shown 3#4 0#3)) (·.bitmapWord 0) = some (Config.freeRow 1 0) := by
  show some ((_ &&& 0#32) ||| (Config.freeRow 1 0 &&& ~~~0#32)) = _
  rw [BitVec.and_zero, BitVec.zero_or, show ~~~0#32 = BitVec.allOnes 32 by decide, BitVec.and_allOnes]

/-- The last byte of the buffer is inside it, and the byte after it is not: the store then acts after the command. -/
theorem test_contended_store_boundary :
    step (queued (fresh 1#4 [1#8]) [.contendedCommand 0x4#32 (.store 0x1000#32 9#8)]) =
      .fault (.protocolViolation 0x4#32 (.store 0x1000#32 9#8)) ∧
    read (step (queued (fresh 1#4 [1#8]) [.contendedCommand 0x4#32 (.store 0x1001#32 9#8)])) (fun t =>
        (t.codeword 2, t.hostMem.read 0x1001)) = some (some 0x10#8, some 9#8) := ⟨rfl, by decide +kernel⟩

/-! ### Host programs -/

/-- Program P1 of section 3: its accesses, as the right column of the table gives them. -/
theorem test_program_P1 :
    programAccesses [.setAddr 0x1000, .evaluate 1 1, .rdStat, .encode, .getModule 7 0, .rdRow 0] =
      some [.regWrite 0x008 4 0x00001000#32, .regWrite 0x000 4 0x00010101#32, .regRead 0x004 4, .regWrite 0x000 4 0x00000002#32,
        .regWrite 0x000 4 0x00000703#32, .regRead 0x100 4] := by decide

/-! ### Emit, control and registers (section 2.9) -/

theorem test_illegal_sets_ill :
    read (step (State.reset.withFetchWord 32 0xA)) (·.status.toWord) = some 0x10#32 := by decide

/-- Section 2.9: the dark module of version 1. -/
theorem test_getModule_dark :
    read (exec (.getModule 8#5 13#5) (shown 1#4 0#3)) (·.status.moduleBit) = some true := by decide +kernel

theorem test_getModule_out_of_range :
    exec (.getModule 20#5 21#5) (shown 1#4 0#3) = .fault (.moduleOutOfRange 20 21 21) := rfl

theorem test_encode_unevaluated : exec .encode State.reset = .fault (.encodeUnevaluated 0x2#32) := rfl

theorem test_score_not_ready : exec .score State.reset = .fault (.bitmapNotReady 0x7#32) := rfl

theorem test_codeword_write :
    read (step (queued State.reset [.regWrite 0x214 4 0x1AB#32])) (fun t => (t.codeword 5, t.codeword 6)) =
      some (some 0xAB#8, none) := by decide +kernel

theorem test_misaligned_read :
    step (queued State.reset [.regRead 0x002 4]) = .fault (.registerAccessFault 2 4) ∧
    step (queued State.reset [.regRead 0x004 1]) = .fault (.registerAccessFault 4 1) := ⟨rfl, rfl⟩

/-! ### Witnesses: for each statement with hypotheses, operands and a state that meet all of them

A statement whose hypotheses are about a state or an operand has its witness here; every clause has one at a boundary value. -/

/-- The three contexts at full capacity, and the least one, satisfy the invariant with VALID = 1 and the input admitted. -/
theorem witness_valid_context {v : BitVec 4} {input : List Byte} (hv : v.toNat ∈ [1, 2, 3])
    (hl : input.length ≤ capacity v.toNat) :
    Inv (fresh v input) ∧ (fresh v input).status.valid = true ∧ (fresh v input).admits input := by
  have hc : capacity v.toNat ≤ 53 := by
    simp only [List.mem_cons, List.not_mem_nil, or_false] at hv
    rcases hv with h | h | h <;> simp [h, capacity]
  have hn : (fresh v input).ctx.inlen.toNat = input.length := by
    show ((BitVec.ofNat 16 input.length).setWidth 6).toNat = _
    simp; omega
  have ha : (fresh v input).ctx.addr.toNat = 0x1000 := rfl
  refine ⟨inv_of_context (.inr rfl) hv hl, rfl, hn.symm, ?_, fun i hi => ?_⟩
  · rw [ha, hn]; simp [Config.addrW]; omega
  · rw [ha]
    have : ∀ (l : List Byte) (k j : Nat), Memory.read ((l.zipIdx k).map fun p => (0x1000 + p.2, p.1)) (0x1000 + (k + j)) = l[j]? := by
      intro l
      induction l with
      | nil => intro k j; simp [Memory.read]
      | cons b l ih =>
        intro k j
        rw [List.zipIdx_cons, List.map_cons, read_cons]
        cases j with
        | zero => simp
        | succ j =>
          rw [if_neg (by omega), List.getElem?_cons_succ, ← ih (k + 1) j]
          congr 2; omega
    rw [← this input 0 i, Nat.zero_add]; rfl

theorem witness_EncodedInstructionsDecodeToThemselves :
    WellFormed (.illegal 0x80000000#32) ∧ WellFormed (.getModule 31#5 31#5) ∧ WellFormed (.evaluate 15#4 65535#16) := by decide

theorem witness_WordsDecodeByOpcodeAndFixedBits :
    decode 0x001F1F03#32 ≠ .illegal 0x001F1F03#32 ∧ decode 0x0000000A#32 = .illegal 0x0000000A#32 ∧
    decode 0x80000000#32 = .illegal 0x80000000#32 ∧ decode 0x00000011#32 = .illegal 0x00000011#32 ∧
    decode 0x80000003#32 = .illegal 0x80000003#32 ∧ decode 0x00000809#32 = .illegal 0x00000809#32 := by decide

theorem witness_StepRunsTheCommandWritten :
    (queued State.reset [.regWrite 0x000 4 0x00110101#32]).pending = .regWrite 0x000 4 0x00110101#32 :: [] ∧
    (queued State.reset [.regRead 0x000 4]).pending = .regRead 0x000 4 :: [] := ⟨rfl, rfl⟩

theorem witness_PlacedWordRunsItsInstruction :
    decodeTableWord 32 0x00110101 = some (.evaluate 1#4 17#16) ∧ decodeTableWord 8 0x02 = some .encode := by decide

theorem witness_WaitingStepKeepsTheState : State.reset.pending = [] := rfl

/-- Each range at its last value and at the first value past it. -/
theorem witness_HostLinesWriteTheirCommandWords :
    (15 < 16 ∧ 65535 < 65536) ∧ (16 ≤ 16 ∨ 65536 ≤ 0) ∧ (16 ≤ 0 ∨ 65536 ≤ 65536) ∧ (31 < 32 ∧ 31 < 32) ∧ (32 ≤ 32 ∨ 32 ≤ 0) ∧
    (32 ≤ 0 ∨ 32 ≤ 32) ∧ 7 < 8 ∧ 8 ≤ 8 ∧
    (HostLine.nop, Instr.nop) ∈ [(HostLine.nop, Instr.nop), (.encode, .encode)] := by decide

theorem witness_ResetEventRestoresTheTableValues :
    (queued (shown 1#4 0#3) [.reset, .regRead 0 4]).pending = .reset :: [.regRead 0 4] := rfl

theorem witness_CommandsWithoutContextOrSymbol :
    (queued State.reset [.reset]).status.valid = false ∧ (queued State.reset [.reset]).status.done = false := ⟨rfl, rfl⟩

/-- Every clause at its boundary: the capacity and one above it, and versions 0, 4 and 15. -/
theorem witness_EvaluateReplacesOrInvalidatesTheContext :
    ((1#4).toNat = 1 ∧ (17#16).toNat ≤ 17) ∧ ((2#4).toNat = 2 ∧ (32#16).toNat ≤ 32) ∧ ((3#4).toNat = 3 ∧ (53#16).toNat ≤ 53) ∧
    ((1#4).toNat = 1 ∧ 17 < (18#16).toNat) ∧ ((2#4).toNat = 2 ∧ 32 < (33#16).toNat) ∧ ((3#4).toNat = 3 ∧ 53 < (54#16).toNat) ∧
    (0#4).toNat ∉ [1, 2, 3] ∧ (4#4).toNat ∉ [1, 2, 3] ∧ (15#4).toNat ∉ [1, 2, 3] := by decide

/-- The empty input (all pad codewords) and the full one (none, `D − L − 2 = 0`). -/
theorem witness_AssembleWritesTheClosedForm :
    (Inv (fresh 1#4 []) ∧ (fresh 1#4 []).status.valid = true ∧ (fresh 1#4 []).admits []) ∧
    (Inv (fresh 3#4 (List.replicate 53 0#8)) ∧ (fresh 3#4 (List.replicate 53 0#8)).status.valid = true ∧
      (fresh 3#4 (List.replicate 53 0#8)).admits (List.replicate 53 0#8)) :=
  ⟨witness_valid_context (by decide) (by decide), witness_valid_context (by decide) (by decide)⟩

/-- A state whose one input byte is not admitted, and one whose range passes the top of the space. -/
theorem witness_AssembleRunsExactlyWhenItsInputIsAdmitted :
    (let s := { fresh 1#4 [0x41#8] with hostMem := [] }
     s.status.valid = true ∧ 0 < s.ctx.inlen.toNat ∧ s.hostMem.read (s.ctx.addr.toNat + 0) = none) ∧
    (let s := { fresh 1#4 [0x41#8, 0x42#8] with
       ctx := contextFor 0xFFFFFFFF#32 1#4 2#16, hostMem := [(0xFFFFFFFF, 0x41#8)] }
     s.status.valid = true ∧ 1 < s.ctx.inlen.toNat ∧ 2 ^ 32 ≤ s.ctx.addr.toNat + 1 ∧
       ∀ j, j < 1 → s.ctx.addr.toNat + j < 2 ^ 32 ∧ (s.hostMem.read (s.ctx.addr.toNat + j)).isSome = true) := by decide

theorem witness_RsEncodeWritesTheRemainder :
    (Inv (ready 3#4 []) ∧ (ready 3#4 []).status.valid = true ∧ (ready 3#4 []).writtenBelow (ready 3#4 []).ctx.lpData.toNat) ∧
    State.reset.status.valid = false ∧
    (let s := (fresh 1#4 []).writeCodewords 0 (List.replicate 18 0#8)
     s.status.valid = true ∧ 18 < s.ctx.lpData.toNat ∧ s.codeword 18 = none ∧ s.writtenBelow 18) := by
  refine ⟨⟨inv_of_context (.inl rfl) (by decide) (by decide), rfl, written_ready _ _ (by decide)⟩, rfl, rfl, by decide, by decide, ?_⟩
  show ∀ i, i < 18 → _
  decide

/-- The least unwritten index is the last correction codeword of version 1, or the first data codeword. -/
theorem witness_UnwrittenCodewordFaultsWithTheLeastIndex :
    (let s := (fresh 1#4 []).writeCodewords 0 (List.replicate 25 0#8)
     s.status.valid = true ∧ 25 < s.ctx.lpTotal.toNat ∧ s.codeword 25 = none ∧ s.writtenBelow 25) ∧
    (let s := fresh 3#4 []
     s.status.valid = true ∧ 0 < s.ctx.lpTotal.toNat ∧ s.codeword 0 = none ∧ s.writtenBelow 0) := by
  refine ⟨⟨rfl, by decide, by decide, ?_⟩, rfl, by decide, by decide, fun i hi => absurd hi (by omega)⟩
  show ∀ i, i < 25 → _
  decide

theorem witness_BlockVanishesAtTheGeneratorsRoots : 15 ∈ [7, 10, 15] ∧ 14 < 15 ∧ 7 ∈ [7, 10, 15] ∧ 0 < 7 := by decide

theorem witness_RemainderIsLinear : ([0x01#8, 0x02#8] : List Byte).length = ([0xFF#8, 0x00#8] : List Byte).length := rfl

theorem witness_LogTablesGiveTheProduct : (0x00#8 = 0#8 ∨ 0x53#8 = 0#8) ∧ 0x01#8 ≠ 0#8 ∧ 0xFF#8 ≠ 0#8 := by decide

theorem witness_ExpAndLogAreThePowersOfAlpha : 253 < 254 ∧ 0xFF#8 ≠ 0#8 ∧ gfExp 254 = 0x8E#8 := by decide +kernel

theorem witness_FormatWordWritesTheTableWord : fmtWord 5#3 = fmtWord 5#3 := rfl

theorem witness_ReservedAndDataModuleCounts :
    (3, 26, 25, 274, 567, 70, 7) ∈ [(1, 10, 0, 233, 208, 26, 0), (2, 18, 25, 266, 359, 44, 7), (3, 26, 25, 274, 567, 70, 7)] ∧
    28 < 4 * 3 + 17 := by decide

theorem witness_ZigzagVisitsEachDataModuleOnce :
    1 ≤ 1 ∧ 3 ≤ 3 ∧ (20, 20) ∈ zigzag 1 ∧ (8, 9) ∈ zigzag 1 ∧ (5, 9) ∈ zigzag 1 := by decide +kernel

/-- The first data module and, in version 2, the last remainder bit (section 2.7.3). -/
theorem witness_DataModulesCarryTheMaskedStream :
    (2, 7) ∈ [(1, 0), (2, 7), (3, 7)] ∧ (List.replicate 44 0x11#8).length = (layoutOf 2).total ∧
    (zigzag 2)[0]? = some (24, 24) ∧ (zigzag 2)[358]? = some (0, 16) := by decide +kernel

/-- Both ends of every range of positions, in the largest symbol. -/
theorem witness_FunctionPatternsAreFixed :
    1 ≤ 3 ∧ 3 ≤ 3 ∧ (22, 0) ∈ [(0, 0), (29 - 7, 0), (0, 29 - 7)] ∧ 6 < 7 ∧ 7 < 8 ∧ 8 ≤ 20 ∧ 20 ≤ 29 - 9 ∧ 2 ≤ 3 ∧ 4 < 5 ∧
    1 ≤ 1 ∧ 8 ≤ 12 ∧ 12 ≤ 21 - 9 := by decide

theorem witness_FormatCopiesHoldTheMasksWord : 1 ≤ 1 ∧ 3 ≤ 3 ∧ 7 < 8 ∧ 8 ≤ 8 ∧ 14 < 15 ∧ formatA[14]? = some (0, 8) := by decide

theorem witness_PlaceWritesTheSymbol :
    (Inv (ready 3#4 []) ∧ (ready 3#4 []).status.valid = true ∧
      (ready 3#4 []).writtenBelow (ready 3#4 []).ctx.lpTotal.toNat) ∧
    State.reset.status.valid = false ∧
    ((fresh 1#4 []).status.valid = true ∧ 0 < (fresh 1#4 []).ctx.lpTotal.toNat ∧ (fresh 1#4 []).codeword 0 = none ∧
      (fresh 1#4 []).writtenBelow 0) :=
  ⟨⟨inv_of_context (.inl rfl) (by decide) (by decide), rfl, written_ready _ _ (by decide)⟩, rfl, rfl, by decide, by decide,
    fun i hi => absurd hi (by omega)⟩

/-- Runs of 4 and of 5 modules, before the other colour and at the end of the line. -/
theorem witness_RunPenaltySumsTheMaximalRuns :
    (1 ≤ 4 ∧ [false, true].head? ≠ some true) ∧ (1 ≤ 5 ∧ ([] : List Bool).head? ≠ some true) := by decide

theorem witness_PenaltyTermsStayInRange : 1 ≤ 29 ∧ 29 ≤ 29 ∧ 1 ≤ 1 ∧ 1 ≤ 29 := by decide

theorem witness_ScoreWritesThePenaltyOfTheBitmap :
    (Inv (shown 3#4 7#3) ∧ (shown 3#4 7#3).status.done = true) ∧ State.reset.status.done = false :=
  ⟨⟨inv_shown 7#3 (by decide), rfl⟩, rfl⟩

theorem place_ready {v : BitVec 4} (hv : v.toNat ∈ [1, 2, 3]) (m : BitVec 3) :
    ∃ t, exec (.place m) (ready v []) = .next t ∧ t.status.done = true :=
  ⟨_, execPlace_next.mpr ⟨rfl, written_ready _ _ (by
    simp only [List.mem_cons, List.not_mem_nil, or_false] at hv
    show (BitVec.ofNat 7 (layoutOf v.toNat).total).toNat ≤ 70
    rcases hv with h | h | h <;> simp [h, layoutOf]), rfl⟩, rfl⟩

theorem select_ready {v : BitVec 4} (hv : v.toNat ∈ [1, 2, 3]) : ∃ t, exec .select (ready v []) = .next t :=
  ⟨_, selectFor_next.mpr ⟨rfl, written_ready _ _ (by
    simp only [List.mem_cons, List.not_mem_nil, or_false] at hv
    show (BitVec.ofNat 7 (layoutOf v.toNat).total).toNat ≤ 70
    rcases hv with h | h | h <;> simp [h, layoutOf]), rfl⟩⟩

theorem witness_ScoreAfterPlaceIsSelectsPenalty :
    ∃ t u r, Inv (ready 2#4 []) ∧ exec (.place 5#3) (ready 2#4 []) = .next t ∧ exec .score t = .next u ∧
      exec .select (ready 2#4 []) = .next r := by
  obtain ⟨t, ht, hd⟩ := place_ready (v := 2#4) (by decide) 5#3
  obtain ⟨r, hr⟩ := select_ready (v := 2#4) (by decide)
  exact ⟨t, _, r, inv_of_context (.inl rfl) (by decide) (by decide), ht, execScore_next.mpr ⟨hd, rfl⟩, hr⟩

theorem witness_SelectKeepsTheFirstMinimum : ∃ t, Inv (ready 3#4 []) ∧ exec .select (ready 3#4 []) = .next t := by
  obtain ⟨r, hr⟩ := select_ready (v := 3#4) (by decide)
  exact ⟨r, inv_of_context (.inl rfl) (by decide) (by decide), hr⟩

theorem witness_SelectCommitsTheWinner :
    (Inv (ready 1#4 []) ∧ (ready 1#4 []).status.valid = true ∧ (ready 1#4 []).writtenBelow (ready 1#4 []).ctx.lpTotal.toNat) ∧
    State.reset.status.valid = false ∧
    ((fresh 1#4 []).status.valid = true ∧ 0 < (fresh 1#4 []).ctx.lpTotal.toNat ∧ (fresh 1#4 []).codeword 0 = none ∧
      (fresh 1#4 []).writtenBelow 0) :=
  ⟨⟨inv_of_context (.inl rfl) (by decide) (by decide), rfl, written_ready _ _ (by decide)⟩, rfl, rfl, by decide, by decide,
    fun i hi => absurd hi (by omega)⟩

theorem witness_SelectsSymbolIsPlacesSymbol : ∃ t, exec .select (ready 2#4 []) = .next t := select_ready (by decide)

theorem assemble_completes {s : State} {b : List Byte} (hv : s.status.valid = true) (ha : s.admits b) :
    ∃ t, exec .assemble s = .next t :=
  ⟨_, assembleFor_next.mpr ⟨hv, b, readBytes_eq_ok.mpr ⟨ha.1, fun _ => ha.2.1, ha.2.2⟩, rfl⟩⟩

/-- With every codeword written before it, ENCODE runs; the two states differ in their codewords and their last symbol. -/
theorem encode_ready {s : State} {b : List Byte} (hv : s.status.valid = true) (ha : s.admits b)
    (hw : ∀ i, i < 70 → (s.codeword i).isSome = true) (hd : s.ctx.lpTotal.toNat ≤ 70 ∧ s.ctx.lpData.toNat ≤ 70) :
    ∃ t, exec .encode s = .next t := by
  have keep : ∀ (u : State) (start : Nat) (bs : List Byte), (∀ i, i < 70 → (u.codeword i).isSome = true) →
      ∀ i, i < 70 → ((u.writeCodewords start bs).codeword i).isSome = true := by
    intro u start bs hu i hi
    rw [codeword_writeCodewords]
    split
    · rw [List.getElem?_eq_getElem (by omega)]; rfl
    · exact hu i hi
  have h1 := keep s 0 (dataCodewords s.ctx.lpData.toNat b) hw
  refine ⟨_, execEncode_next.mpr ⟨_, _, assembleFor_next.mpr ⟨hv, b, readBytes_eq_ok.mpr ⟨ha.1, fun _ => ha.2.1, ha.2.2⟩, rfl⟩,
    rsEncodeFor_next.mpr ⟨hv, fun i hi => h1 i (Nat.lt_of_lt_of_le hi hd.2), rfl⟩,
    selectFor_next.mpr ⟨hv, fun i hi => keep _ _ _ h1 i (Nat.lt_of_lt_of_le hi hd.1), rfl⟩⟩⟩

theorem witness_EncodeDependsOnContextAndInputOnly :
    ∃ s s' t t' : State, ∃ b, Inv s ∧ Inv s' ∧ s.ctx = s'.ctx ∧ s.admits b ∧ s'.admits b ∧ exec .encode s = .next t ∧
      exec .encode s' = .next t' ∧ s.cw ≠ s'.cw := by
  have h := witness_valid_context (v := 1#4) (input := [0x41#8]) (by decide) (by decide)
  have hi := inv_of_context (s := ready 1#4 [0x41#8]) (.inl rfl) (by decide) (by decide)
  let s' : State := { ready 1#4 [0x41#8] with cw := Vector.replicate 70 (some 0xEC#8) }
  obtain ⟨t, ht⟩ := encode_ready (s := ready 1#4 [0x41#8]) rfl h.2.2 (written_ready _ _ (Nat.le_refl 70)) (by decide)
  obtain ⟨t', ht'⟩ := encode_ready (s := s') (b := [0x41#8]) rfl h.2.2 (fun i hi => by simp [s', State.codeword, hi]) (by decide)
  exact ⟨ready 1#4 [0x41#8], s', t, t', [0x41#8], hi,
    ⟨hi.memory, hi.tier, hi.context, hi.valid, hi.evres, (nomatch ·), hi.format, hi.score⟩, rfl, h.2.2, h.2.2, ht, ht', by decide⟩

theorem witness_EncodeCompletesOnAValidContext :
    (Inv (fresh 2#4 [0x71#8]) ∧ (fresh 2#4 [0x71#8]).status.valid = true ∧ (fresh 2#4 [0x71#8]).admits [0x71#8]) ∧
    State.reset.status.valid = false ∧
    (let s := { fresh 2#4 [0x71#8] with hostMem := [] }
     s.status.valid = true ∧ ¬ ∃ input, s.admits input) := by
  refine ⟨witness_valid_context (by decide) (by decide), rfl, rfl, ?_⟩
  rintro ⟨input, hl, -, h⟩
  have h0 := h 0 (by decide)
  have hl : input.length = 1 := hl
  rw [List.getElem?_eq_getElem (by omega)] at h0
  exact nomatch h0

/-- The last module of the symbol, a symbol that is not there, and a coordinate just past the side. -/
theorem witness_GetModuleReadsOneModule :
    ((shown 1#4 0#3).status.done = true ∧ (20#5).toNat < (shown 1#4 0#3).ctx.size.toNat) ∧
    State.reset.status.done = false ∧ (shown 1#4 0#3).ctx.size.toNat ≤ (21#5).toNat := ⟨⟨rfl, by decide⟩, rfl, by decide⟩

/-- One access of each clause: DATA_ADDR, STATUS, the first and last CWW entry, a read-only register, reserved offsets beside CWW. -/
theorem witness_HostWritesChangeOnlyTheirRegister :
    (queued State.reset [.regWrite 0x008 4 0#32]).pending = .regWrite 0x008 4 0#32 :: [] ∧
    (queued State.reset [.regWrite 0x004 4 0x10#32]).pending = .regWrite 0x004 4 0x10#32 :: [] ∧
    (0 < 70 ∧ 0x200 = 0x200 + 4 * 0) ∧ (69 < 70 ∧ 0x314 = 0x200 + 4 * 69) ∧
    (∀ off ∈ [0x014, 0x1FC, 0x318, 0x3FC],
      off % 4 = 0 ∧ off ≤ 0x3FC ∧ off ≠ 0x000 ∧ off ≠ 0x004 ∧ off ≠ 0x008 ∧ ∀ i, i < 70 → off ≠ 0x200 + 4 * i) := by
  refine ⟨rfl, rfl, by decide, by decide, by decide⟩

/-- The first and last offset of each block of the map, and of each reserved gap. -/
theorem witness_HostReadsReturnTheRegisters :
    (∀ off ∈ [0x000, 0x048, 0x04C, 0x07C, 0x080, 0x09C, 0x0A0, 0x0FC, 0x100, 0x170, 0x174, 0x1FC, 0x200, 0x314, 0x318, 0x3FC],
      (queued (shown 1#4 0#3) [.regRead off 4]).pending = .regRead off 4 :: [] ∧ off % 4 = 0 ∧ off ≤ 0x3FC) ∧
    0x09C = 0x080 + 4 * 7 ∧ 0x170 = 0x100 + 4 * 28 ∧ 0x314 = 0x200 + 4 * 69 ∧
    (ready 1#4 []).codeword 69 = some 0x11#8 ∧ (fresh 1#4 []).codeword 69 = none := by
  refine ⟨fun off h => ⟨rfl, ?_⟩, by decide, by decide, by decide, by decide, by decide⟩
  revert off h; decide

theorem witness_MisalignedOrNarrowAccessFaults :
    (2 ≠ 4 ∨ 0x004 % 4 ≠ 0) ∧ (4 ≠ 4 ∨ 0x3FD % 4 ≠ 0) ∧
    (queued State.reset [.regWrite 0x004 2 0#32]).pending = .regWrite 0x004 2 0#32 :: [] ∧
    (queued State.reset [.regRead 0x3FD 4]).pending = .regRead 0x3FD 4 :: [] := ⟨by decide, by decide, rfl, rfl⟩

/-- Every command completes from some state: `exec i s = .next t` is met for each constructor; GET_MODULE needs its coordinates inside
the symbol. -/
theorem witness_CommandsWriteNothingOfTheHost :
    (∀ i : Instr, (∀ x y, i ≠ .getModule x y) → ∃ s t : State, exec i s = .next t) ∧
    ∃ t, exec (.getModule 20#5 20#5) (shown 1#4 0#3) = .next t := by
  refine ⟨fun i hi => ?_, _, execGetModule_next.mpr ⟨rfl, by decide, rfl⟩⟩
  cases i with
  | nop => exact ⟨State.reset, _, rfl⟩
  | evaluate ver len =>
    refine ⟨State.reset, ?_⟩
    simp only [exec, execEvaluate]
    split <;> exact ⟨_, rfl⟩
  | encode =>
    have h := witness_valid_context (v := 1#4) (input := [0x41#8]) (by decide) (by decide)
    exact ⟨ready 1#4 [0x41#8], encode_ready rfl h.2.2 (written_ready _ _ (Nat.le_refl 70)) (by decide)⟩
  | getModule x y => exact absurd rfl (hi x y)
  | assemble =>
    exact ⟨fresh 1#4 [], assemble_completes rfl (witness_valid_context (by decide) (by decide)).2.2⟩
  | rsEncode =>
    exact ⟨ready 1#4 [], _, (rsEncodeFor_next (word := encode .rsEncode) (s := ready 1#4 [])).mpr ⟨rfl, written_ready _ _ (by decide), rfl⟩⟩
  | place m => exact ⟨ready 1#4 [], (place_ready (by decide) m).imp fun _ h => h.1⟩
  | score => exact ⟨shown 1#4 0#3, _, execScore_next.mpr ⟨rfl, rfl⟩⟩
  | select => exact ⟨ready 1#4 [], select_ready (by decide)⟩
  | formatWord m => exact ⟨State.reset, _, rfl⟩
  | illegal w => exact ⟨State.reset, _, rfl⟩

/-- A symbol of 21 × 21 dark modules in BM. -/
def allDark : State :=
  { ready 1#4 [] with
    status := ⟨true, true, true, false, false⟩
    bitmap := ⟨Vector.replicate 29 0xFFFFFFFF#32, 0⟩ }

/-- From any state SELECT runs in, one with another PEN[0] than candidate 0's total, where SELECT changes PEN. -/
theorem select_changes_pen (s : State) (hv : s.status.valid = true) (hw : s.writtenBelow s.ctx.lpTotal.toNat) :
    ∃ s' t, exec .select s' = .next t ∧ t.pen ≠ s'.pen := by
  let x := BitVec.ofNat 16
    (penaltyTotal (candidatePenalty s.ctx.version.toNat (s.codewords s.ctx.lpTotal.toNat) (BitVec.ofNat 3 0)))
  refine ⟨{ s with pen := Vector.replicate 8 (x + 1#16) }, _, (selectFor_next (word := encode .select)).mpr ⟨hv, hw, rfl⟩,
    fun h => ?_⟩
  have h0 := congrArg (fun v : Vector (BitVec 16) 8 => v[0]?) h
  simp only [getElem?_pen_commitWinner _ _ _ 0 (by decide)] at h0
  have h1 : some x = (Vector.replicate 8 (x + 1#16))[0]? := h0
  have : x = x + 1#16 := by simpa only [Vector.getElem?_replicate, Nat.zero_lt_succ, if_true, Option.some.injEq] using h1
  bv_omega

/-- One command for each clause, which changes what the clause is about; DONE is set by one and cleared by another. -/
theorem witness_EachRegisterHasItsWriters :
    (∃ t, exec (.evaluate 1#4 0#16) State.reset = .next t ∧ t.ctx ≠ State.reset.ctx ∧ t.status.valid ≠ State.reset.status.valid) ∧
    (∃ t, exec (.evaluate 1#4 0#16) (shown 1#4 0#3) = .next t ∧ t.status.done ≠ (shown 1#4 0#3).status.done) ∧
    (∃ t, exec (.getModule 20#5 20#5) allDark = .next t ∧ t.status.moduleBit ≠ allDark.status.moduleBit) ∧
    (∃ t, exec (.illegal 0xA#32) State.reset = .next t ∧ t.status.ill ≠ State.reset.status.ill) ∧
    (∃ t, exec (.formatWord 5#3) State.reset = .next t ∧ t.fmt ≠ State.reset.fmt) ∧
    (∃ t, exec .assemble (fresh 1#4 []) = .next t ∧ t.cw ≠ (fresh 1#4 []).cw) ∧
    (∃ t, exec (.place 5#3) (ready 1#4 []) = .next t ∧ t.bitmap ≠ (ready 1#4 []).bitmap ∧
      t.maskSel ≠ (ready 1#4 []).maskSel ∧ t.status.done ≠ (ready 1#4 []).status.done) ∧
    (∃ t, exec .score allDark = .next t ∧ t.score ≠ allDark.score) ∧
    (∃ s t, exec .select s = .next t ∧ t.pen ≠ s.pen) := by
  refine ⟨⟨_, rfl, by decide, by decide⟩, ⟨_, rfl, by decide⟩, ⟨_, execGetModule_next.mpr ⟨rfl, by decide, rfl⟩, by decide⟩,
    ⟨_, rfl, by decide⟩, ⟨_, rfl, by decide⟩, ?_, ?_, ⟨_, execScore_next.mpr ⟨rfl, rfl⟩, by decide +kernel⟩, ?_⟩
  · have ha : (fresh 1#4 []).admits [] := (witness_valid_context (by decide) (by decide)).2.2
    refine ⟨_, (assembleFor_next (word := encode .assemble)).mpr ⟨rfl, [], readBytes_eq_ok.mpr ⟨ha.1, fun _ => ha.2.1, ha.2.2⟩, rfl⟩,
      fun h => ?_⟩
    have : ((fresh 1#4 []).writeCodewords 0 (dataCodewords 19 [])).codeword 0 = (fresh 1#4 []).codeword 0 := by
      unfold State.codeword; rw [show ((fresh 1#4 []).writeCodewords 0 (dataCodewords 19 [])).cw = (fresh 1#4 []).cw from h]
    revert this; decide
  · refine ⟨_, execPlace_next.mpr ⟨rfl, written_ready _ _ (by decide), rfl⟩, fun h => ?_, show 5#3 ≠ 0#3 by decide,
      show true ≠ false by decide⟩
    have := congrArg Bitmap.draw h
    revert this; decide
  · exact select_changes_pen (ready 1#4 []) rfl (written_ready _ _ (by decide))

/-- An EVALUATE that changes the context, and a PLACE that changes BM. -/
theorem witness_EveryStepKeepsTheInvariant :
    (∃ s t, Inv s ∧ step s = .next t ∧ t.ctx ≠ s.ctx ∧ s.pending.head? ≠ some .reset) ∧
    (∃ s t, Inv s ∧ step s = .next t ∧ t.bitmap ≠ s.bitmap ∧ s.pending.head? ≠ some .reset) := by
  have h := inv_shown (v := 1#4) 0#3 (by decide)
  have h' := inv_of_context (s := ready 1#4 []) (.inl rfl) (by decide) (by decide)
  refine ⟨⟨queued (shown 1#4 0#3) [.regWrite 0x000 4 0x00350301#32], _,
      ⟨h.memory, h.tier, h.context, h.valid, h.evres, h.done, h.format, h.score⟩, rfl, by decide, by decide⟩,
    queued (ready 1#4 []) [.regWrite 0x000 4 0x00000506#32], (ready 1#4 []).commitSymbol 1 ((ready 1#4 []).codewords 26) 5#3,
    ⟨h'.memory, h'.tier, h'.context, h'.valid, h'.evres, (nomatch ·), h'.format, h'.score⟩, ?_, fun e => ?_, by decide⟩
  · show exec (decode 0x00000506#32) (ready 1#4 []) = _
    rw [show decode 0x00000506#32 = .place 5#3 by decide]
    exact execPlace_next.mpr ⟨rfl, written_ready _ _ (by decide), rfl⟩
  · have := congrArg Bitmap.draw e
    revert this; decide

/-- A second command; a store at the last byte of the buffer of ENCODE; a store just below it, and one just past it; SCORE. -/
theorem witness_ContendedCommandsViolateTheProtocol :
    (queued State.reset [.contendedCommand 0x2#32 (.command 0x0#32)]).pending =
      .contendedCommand 0x2#32 (.command 0x0#32) :: [] ∧
    (let s := queued (fresh 1#4 [1#8, 2#8]) [.contendedCommand 0x2#32 (.store 0x1001#32 9#8)]
     s.pending = .contendedCommand 0x2#32 (.store 0x1001#32 9#8) :: [] ∧ decode 0x2#32 ∈ [.assemble, .encode] ∧
       s.ctx.addr.toNat ≤ (0x1001#32).toNat ∧ (0x1001#32).toNat < s.ctx.addr.toNat + s.ctx.inlen.toNat ∧
       (0x0FFF#32).toNat < s.ctx.addr.toNat ∧ s.ctx.addr.toNat + s.ctx.inlen.toNat ≤ (0x1002#32).toNat) ∧
    decode 0x7#32 ∉ [.assemble, .encode] := by decide

theorem witness_SymbolInBitmapNamesItsMask :
    (Inv (shown 1#4 3#3) ∧ (shown 1#4 3#3).status.done = true) ∧ (Inv (shown 3#4 7#3) ∧ (shown 3#4 7#3).status.done = true) :=
  ⟨⟨inv_shown 3#3 (by decide), rfl⟩, inv_shown 7#3 (by decide), rfl⟩

theorem witness_HostStoreChangesOneByte :
    (queued State.reset [.memStore 0xFFFFFFFF#32 0x41#8]).pending = .memStore 0xFFFFFFFF#32 0x41#8 :: [] ∧
    0 ≠ (0xFFFFFFFF#32).toNat := by decide

end Sys2Proof.Tests
end

/-! # The state: what a command and a step can do, and the statements about registers and storage -/

namespace Sys2Proof.Machine

/-! ### What a command can do -/

/-- The next states of a command by the fields it may write. Values that no statement about the registers' writers reads (a
codeword, a penalty) are left open; what DONE and the context stand for is kept. -/
inductive Effect (s : State) : Instr → State → Prop
  | nop : Effect s .nop s
  | evaluated {ver : BitVec 4} {len : BitVec 16} (hfits : fits ver.toNat len.toNat = true) :
      Effect s (.evaluate ver len) { s with ctx := contextFor s.dataAddr ver len, status := s.status.evaluated }
  | rejected {ver : BitVec 4} {len : BitVec 16} : Effect s (.evaluate ver len) { s with status := s.status.rejected }
  | encoded (hvalid : s.status.valid = true) (cw : Vector (Option Byte) 70) {stream : List Byte}
      (hlen : stream.length = s.ctx.lpTotal.toNat) :
      Effect s .encode (State.commitWinner { s with cw := cw } s.ctx.version.toNat stream)
  | returned {x y : BitVec 5} (dark : Bool) : Effect s (.getModule x y) { s with status := s.status.returned dark }
  | assembled (cw : Vector (Option Byte) 70) : Effect s .assemble { s with cw := cw }
  | coded (cw : Vector (Option Byte) 70) : Effect s .rsEncode { s with cw := cw }
  | placed (hvalid : s.status.valid = true) {m : BitVec 3} {stream : List Byte}
      (hlen : stream.length = s.ctx.lpTotal.toNat) :
      Effect s (.place m) (s.commitSymbol s.ctx.version.toNat stream m)
  | scored (p : Penalty) : Effect s .score { s with score := scoreOf p }
  | selected (hvalid : s.status.valid = true) {stream : List Byte} (hlen : stream.length = s.ctx.lpTotal.toNat) :
      Effect s .select (s.commitWinner s.ctx.version.toNat stream)
  | formatted {m : BitVec 3} : Effect s (.formatWord m) { s with fmt := fmtWord m }
  | illegal {w : Word} : Effect s (.illegal w) { s with status := s.status.illegal }

theorem exec_effect {i : Instr} {s t : State} (h : exec i s = .next t) : Effect s i t := by
  cases i with
  | nop => obtain rfl := next_eq_next.mp h; exact .nop
  | evaluate ver len =>
    obtain ⟨hfits, rfl⟩ | ⟨-, rfl⟩ := execEvaluate_next h
    · exact .evaluated hfits
    · exact .rejected
  | encode =>
    obtain ⟨a, b, ha, hb, ht⟩ := execEncode_next.mp h
    obtain ⟨hvalid, _, -, rfl⟩ := assembleFor_next.mp ha
    obtain ⟨-, -, rfl⟩ := rsEncodeFor_next.mp hb
    obtain ⟨-, -, rfl⟩ := selectFor_next.mp ht
    exact .encoded hvalid _ (length_codewords _ _)
  | getModule x y => obtain ⟨-, -, rfl⟩ := execGetModule_next.mp h; exact .returned _
  | assemble => obtain ⟨-, _, -, rfl⟩ := assembleFor_next.mp h; exact .assembled _
  | rsEncode => obtain ⟨-, -, rfl⟩ := rsEncodeFor_next.mp h; exact .coded _
  | place m =>
    obtain ⟨hvalid, -, rfl⟩ := execPlace_next.mp h
    exact .placed hvalid (length_codewords _ _)
  | score => obtain ⟨-, rfl⟩ := execScore_next.mp h; exact .scored _
  | select =>
    obtain ⟨hvalid, -, rfl⟩ := selectFor_next.mp h
    exact .selected hvalid (length_codewords _ _)
  | formatWord m => obtain rfl := next_eq_next.mp h; exact .formatted
  | illegal w => obtain rfl := next_eq_next.mp h; exact .illegal

/-- R61 (a): the context registers change only in an EVALUATE that succeeds. -/
theorem exec_changes_ctx {i : Instr} {s t : State} (h : exec i s = .next t) (hne : t.ctx ≠ s.ctx) :
    (∃ ver len, i = .evaluate ver len) ∧
      t.status.valid = true ∧ t.status.evres = true ∧ t.status.done = false := by
  cases exec_effect h with
  | evaluated => exact ⟨⟨_, _, rfl⟩, rfl, rfl, rfl⟩
  | _ => exact absurd rfl hne

/-- R61 (c): BM changes only in a PLACE, SELECT or ENCODE, which sets DONE. -/
theorem exec_changes_bitmap {i : Instr} {s t : State} (h : exec i s = .next t) (hne : t.bitmap ≠ s.bitmap) :
    (i = .select ∨ i = .encode ∨ ∃ m, i = .place m) ∧ t.status.done = true := by
  cases exec_effect h with
  | placed => exact ⟨.inr (.inr ⟨_, rfl⟩), rfl⟩
  | selected => exact ⟨.inl rfl, rfl⟩
  | encoded => exact ⟨.inr (.inl rfl), rfl⟩
  | _ => exact absurd rfl hne

/-! ### What a step can do -/

theorem step_of_pending {s : State} {e : HostEvent} {rest : List HostEvent} (h : s.pending = e :: rest) :
    step s = runEvent e { s with pending := rest } := by
  simp only [step, runPending, h]

/-- CMD is the register at offset 0 and at no other (R34). -/
theorem regAt_eq_cmd {off : Nat} (h : regAt off = .cmd) : off = 0x000 := by
  unfold regAt at h
  split at h
  case h_1 => rfl
  case h_20 => split_ifs at h
  all_goals cases h

/-- A register write runs a command, or changes at most STATUS.ILL, DATA_ADDR and the codewords (R273 to R277). -/
theorem writeReg_next {r : Reg} {v : Word} {s t : State} (h : writeReg r v s = .next t) :
    (r = .cmd ∧ exec (decode v) s = .next t) ∨
      ∃ ill dataAddr cw, t = { s with status := { s.status with ill := ill }, dataAddr := dataAddr, cw := cw } := by
  cases r with
  | cmd => exact .inl ⟨rfl, h⟩
  | _ => exact .inr ⟨_, _, _, next_eq_next.mp h⟩

/-- The next states of a step by what the host does (R77, R332): a command with or without a store beside it, reset, a store, or a
register access that runs no command. -/
inductive StepEffect (s : State) : State → Prop
  | waiting : StepEffect s s
  | command {i : Instr} {t : State} (rest : List HostEvent) (hi : s.nextCommand = some i)
      (he : exec i { s with pending := rest } = .next t) : StepEffect s t
  | contended {i : Instr} {t : State} (rest : List HostEvent) (addr : Word) (value : Byte) (hi : s.nextCommand = some i)
      (he : exec i { s with pending := rest } = .next t) : StepEffect s (hostStore addr value t)
  | access (ill : Bool) (dataAddr : Word) (cw : Vector (Option Byte) 70) (rest : List HostEvent) (readLog : List Word)
      (draws : Nat) :
      StepEffect s
        { s with
          status := { s.status with ill := ill }
          dataAddr := dataAddr
          cw := cw
          pending := rest
          readLog := readLog
          draws := draws }
  | store (rest : List HostEvent) (addr : Word) (value : Byte) :
      StepEffect s (hostStore addr value { s with pending := rest })
  | reset (rest : List HostEvent) (hp : s.pending.head? = some .reset) :
      StepEffect s (State.resetBlock { s with pending := rest })

theorem regWrite_effect {s t : State} {off size : Nat} {v : Word} {rest : List HostEvent}
    (hp : s.pending = .regWrite off size v :: rest) (h : hostWrite off size v { s with pending := rest } = .next t) :
    StepEffect s t := by
  unfold hostWrite at h
  split at h
  case isFalse => cases h
  case isTrue hacc =>
    obtain ⟨hcmd, he⟩ | ⟨ill, dataAddr, cw, rfl⟩ := writeReg_next h
    · simp only [regAccessible, Bool.and_eq_true, beq_iff_eq] at hacc
      obtain ⟨⟨rfl, -⟩, -⟩ := hacc
      obtain rfl := regAt_eq_cmd hcmd
      exact .command rest (by simp [State.nextCommand, hp]) he
    · exact .access ill dataAddr cw rest _ _

theorem regRead_effect {s t : State} {off size : Nat} {rest : List HostEvent}
    (h : hostRead off size { s with pending := rest } = .next t) : StepEffect s t := by
  unfold hostRead at h
  split at h
  case isFalse => cases h
  case isTrue =>
    obtain rfl := next_eq_next.mp h
    exact .access _ _ _ rest _ _

theorem contendedCommand_effect {s t : State} {word : Word} {intrusion : Intrusion} {rest : List HostEvent}
    (hp : s.pending = .contendedCommand word intrusion :: rest)
    (h : contended word intrusion { s with pending := rest } = .next t) : StepEffect s t := by
  cases intrusion with
  | command other => cases h
  | store addr value =>
    simp only [contended] at h
    split at h
    case isTrue => cases h
    case isFalse =>
      obtain ⟨u, he, ht⟩ := andThen_eq_next.mp h
      obtain rfl := next_eq_next.mp ht
      exact .contended rest addr value (by simp [State.nextCommand, hp]) he

theorem step_effect {s t : State} (h : step s = .next t) : StepEffect s t := by
  cases hp : s.pending with
  | nil =>
    simp only [step, runPending, hp] at h
    obtain rfl := next_eq_next.mp h
    exact .waiting
  | cons e rest =>
    rw [step_of_pending hp] at h
    cases e with
    | regWrite off size v => exact regWrite_effect hp h
    | regRead off size => exact regRead_effect h
    | memStore addr value => obtain rfl := next_eq_next.mp h; exact .store rest addr value
    | reset => obtain rfl := next_eq_next.mp h; exact .reset rest (by rw [hp]; rfl)
    | contendedCommand word intrusion => exact contendedCommand_effect hp h

/-! ### The invariant -/

section Inv

variable {s : State} (h : Inv s)
include h

/-- The invariant does not read DATA_ADDR, PEN, the codewords, the host's accesses or the draw counter. -/
theorem Inv.frame (dataAddr : Word) (pen : Vector (BitVec 16) 8) (cw : Vector (Option Byte) 70) (pending : List HostEvent)
    (readLog : List Word) (draws : Nat) :
    Inv { s with dataAddr := dataAddr, pen := pen, cw := cw, pending := pending, readLog := readLog, draws := draws } :=
  ⟨h.memory, h.tier, h.context, h.valid, h.evres, h.done, h.format, h.score⟩

/-- The invariant does not read STATUS.MODULE and STATUS.ILL. -/
theorem Inv.setModuleIll (moduleBit ill : Bool) :
    Inv { s with status := { s.status with moduleBit := moduleBit, ill := ill } } :=
  ⟨h.memory, h.tier, h.context, h.valid, h.evres, h.done, h.format, h.score⟩

theorem Inv.rejected : Inv { s with status := s.status.rejected } :=
  ⟨h.memory, h.tier, h.context, (nomatch ·), rfl, h.done, h.format, h.score⟩

theorem Inv.setFmt (m : BitVec 3) : Inv { s with fmt := fmtWord m } :=
  ⟨h.memory, h.tier, h.context, h.valid, h.evres, h.done, .inr ⟨m, rfl⟩, h.score⟩

theorem Inv.hostStore (addr : Word) (value : Byte) : Inv (hostStore addr value s) :=
  ⟨hostStore_wf addr value h.memory, h.tier, h.context, h.valid, h.evres, h.done, h.format, h.score⟩

end Inv

/-- The SCORE registers hold the four terms and their sum, as 16-bit values (R48, R49). -/
theorem scoreOf_total (p : Penalty) :
    (scoreOf p).total = (scoreOf p).n1 + (scoreOf p).n2 + (scoreOf p).n3 + (scoreOf p).n4 := by
  simp only [scoreOf, penaltyTotal, BitVec.ofNat_add]

theorem Inv.setScore {s : State} (h : Inv s) (p : Penalty) : Inv { s with score := scoreOf p } :=
  ⟨h.memory, h.tier, h.context, h.valid, h.evres, h.done, h.format, scoreOf_total p⟩

/-- A successful EVALUATE leaves context registers that belong together (R39 to R45, R115). -/
theorem contextFor_consistent {addr : Word} {ver : BitVec 4} {len : BitVec 16} (h : fits ver.toNat len.toNat = true) :
    (contextFor addr ver len).consistent ∧ 1 ≤ (contextFor addr ver len).version.toNat := by
  simp only [fits, Bool.and_eq_true, Bool.or_eq_true, beq_iff_eq, decide_eq_true_eq] at h
  obtain ⟨(hv | hv) | hv, hlen⟩ := h <;> rw [hv] at hlen <;> simp only [capacity] at hlen <;>
    simp [Context.consistent, contextFor, hv, layoutOf, sideOf, capacity] <;> omega

theorem Inv.evaluated {s : State} (h : Inv s) {ver : BitVec 4} {len : BitVec 16} (hfits : fits ver.toNat len.toNat = true) :
    Inv { s with ctx := contextFor s.dataAddr ver len, status := s.status.evaluated } :=
  have ⟨hctx, hver⟩ := contextFor_consistent hfits
  ⟨h.memory, h.tier, hctx, fun _ => hver, rfl, (nomatch ·), h.format, h.score⟩

theorem Inv.commitSymbol {s : State} (h : Inv s) (hvalid : s.status.valid = true) {stream : List Byte}
    (hlen : stream.length = s.ctx.lpTotal.toNat) (m : BitVec 3) :
    Inv (s.commitSymbol s.ctx.version.toNat stream m) :=
  ⟨h.memory, h.tier, h.context, h.valid, h.evres,
    fun _ => commitSymbol_holdsSymbol s m stream h.context (h.valid hvalid) hlen, .inr ⟨m, rfl⟩, h.score⟩

theorem Inv.commitWinner {s : State} (h : Inv s) (hvalid : s.status.valid = true) {stream : List Byte}
    (hlen : stream.length = s.ctx.lpTotal.toNat) : Inv (s.commitWinner s.ctx.version.toNat stream) :=
  ((h.commitSymbol hvalid hlen _).setScore _).frame _ _ _ _ _ _

theorem exec_keeps_inv {i : Instr} {s t : State} (h : Inv s) (he : exec i s = .next t) : Inv t := by
  cases exec_effect he with
  | nop => exact h
  | evaluated hfits => exact h.evaluated hfits
  | rejected => exact h.rejected
  | encoded hvalid cw hlen => exact (h.frame _ _ cw _ _ _).commitWinner hvalid hlen
  | returned dark => exact h.setModuleIll dark _
  | assembled cw => exact h.frame _ _ cw _ _ _
  | coded cw => exact h.frame _ _ cw _ _ _
  | placed hvalid hlen => exact h.commitSymbol hvalid hlen _
  | scored p => exact h.setScore p
  | selected hvalid hlen => exact h.commitWinner hvalid hlen
  | formatted => exact h.setFmt _
  | illegal => exact h.setModuleIll _ true

theorem Inv.resetBlock {s : State} (h : Inv s) : Inv s.resetBlock :=
  ⟨h.memory, h.tier, .inl rfl, (nomatch ·), rfl, (nomatch ·), .inl rfl, rfl⟩

theorem step_keeps_inv {s t : State} (h : Inv s) (hstep : step s = .next t) : Inv t := by
  cases step_effect hstep with
  | waiting => exact h
  | command rest _ he => exact exec_keeps_inv (h.frame _ _ _ rest _ _) he
  | contended rest addr value _ he => exact (exec_keeps_inv (h.frame _ _ _ rest _ _) he).hostStore addr value
  | access ill => exact (h.setModuleIll _ ill).frame _ _ _ _ _ _
  | store rest addr value => exact (h.frame _ _ _ rest _ _).hostStore addr value
  | reset rest => exact (h.frame _ _ _ rest _ _).resetBlock

/-- Outside reset, a step changes the context registers only when it runs an EVALUATE that succeeds (R61 a). -/
theorem step_changes_ctx {s t : State} (hstep : step s = .next t) (hne : t.ctx ≠ s.ctx)
    (hr : s.pending.head? ≠ some .reset) :
    (∃ ver len, s.nextCommand = some (.evaluate ver len)) ∧
      t.status.valid = true ∧ t.status.evres = true ∧ t.status.done = false := by
  cases step_effect hstep with
  | waiting | access | store => exact absurd rfl hne
  | command _ hi he | contended _ _ _ hi he =>
    obtain ⟨⟨ver, len, rfl⟩, hflags⟩ := exec_changes_ctx he hne
    exact ⟨⟨ver, len, hi⟩, hflags⟩
  | reset _ hp => exact absurd hp hr

/-- Outside reset, a step changes BM only when it runs a PLACE, SELECT or ENCODE, which sets DONE (R61 c). -/
theorem step_changes_bitmap {s t : State} (hstep : step s = .next t) (hne : t.bitmap ≠ s.bitmap)
    (hr : s.pending.head? ≠ some .reset) :
    (s.nextCommand = some .select ∨ s.nextCommand = some .encode ∨ ∃ m, s.nextCommand = some (.place m)) ∧
      t.status.done = true := by
  cases step_effect hstep with
  | waiting | access | store => exact absurd rfl hne
  | command _ hi he | contended _ _ _ hi he =>
    obtain ⟨rfl | rfl | ⟨m, rfl⟩, hdone⟩ := exec_changes_bitmap he hne
    · exact ⟨.inl hi, hdone⟩
    · exact ⟨.inr (.inl hi), hdone⟩
    · exact ⟨.inr (.inr ⟨m, hi⟩), hdone⟩
  | reset _ hp => exact absurd hp hr

/-- Settles O55: each kind of step, and each command in it, keeps the invariant; BM's new symbol is the one that DONE stands for. -/
theorem everyStepKeepsTheInvariant : Obligations.EveryStepKeepsTheInvariant := by
  intro s t hs hstep
  have ht := step_keeps_inv hs hstep
  refine ⟨ht, step_changes_ctx hstep, fun hne hr => ?_⟩
  obtain ⟨hcmd, hdone⟩ := step_changes_bitmap hstep hne hr
  exact ⟨hcmd, hdone, ht.done hdone⟩

/-- Settles O54: at reset VALID and DONE are 0, the registers are 0 and CONFIG holds a TIER below 3. -/
theorem resetSatisfiesTheInvariant : Obligations.ResetSatisfiesTheInvariant := by
  have htier : State.reset.config.toNat < 3 := by
    have := Config.tier.isLt
    simp only [reset_config, BitVec.toNat_ofNat]
    omega
  exact ⟨⟨.nil, nofun⟩, htier, .inl rfl, (nomatch ·), rfl, (nomatch ·), .inl rfl, rfl⟩

/-! ### The writers of the registers -/

/-- Settles O52: no effect of a command reaches the host's side, DATA_ADDR or CONFIG. -/
theorem commandsWriteNothingOfTheHost : Obligations.CommandsWriteNothingOfTheHost := by
  intro i s t h
  cases exec_effect h with
  | _ => exact ⟨fun _ => rfl, rfl, rfl, rfl, rfl, rfl⟩

/-- Settles O53, by the effect of each command: a field that the command's rule does not write is the field as it was. -/
theorem eachRegisterHasItsWriters : Obligations.EachRegisterHasItsWriters := by
  intro i s t h
  cases exec_effect h with
  | nop => simp
  | evaluated | rejected => simp -- the context, VALID, EVRES and DONE
  | returned | illegal => simp -- MODULE, ILL
  | assembled | coded => simp -- the codewords
  | scored | formatted => simp -- SCORE, FMT
  | placed | selected | encoded => simp -- the symbol with DONE, and what SELECT and ENCODE write beside it

/-! ### Commands written to CMD -/

/-- Settles O6: offset 0 is CMD, so the write runs the decoded command and the read answers 0. -/
theorem stepRunsTheCommandWritten : Obligations.StepRunsTheCommandWritten :=
  ⟨fun _ _ _ hp => (step_of_pending hp).trans rfl, fun _ _ hp => ⟨_, (step_of_pending hp).trans rfl, rfl⟩⟩

/-- Settles O7: the placed word is a CMD write in front of what is pending, and a step takes that write off again. -/
theorem placedWordRunsItsInstruction : Obligations.PlacedWordRunsItsInstruction := by
  intro s nbits w i hi
  have hdecode : decode (tableWord nbits w) = i := by
    unfold decodeTableWord at hi
    split at hi
    · exact Option.some.inj hi
    · cases hi
  rw [← hdecode]
  exact stepRunsTheCommandWritten.1 _ (tableWord nbits w) s.pending (queueCommand_pending s _)

/-! ### What the host reads -/

/-- With DONE = 0 every bit of a row word is a free value (R52, R271). -/
theorem bitmapWord_of_not_done {s : State} (h : s.status.done = false) (y : Nat) :
    s.bitmapWord y = Config.freeRow s.bitmap.draw y := by
  have hmask : moduleMask s.symbolSide y = 0#32 := by simp [symbolSide_of_not h, moduleMask]
  simp only [State.bitmapWord, hmask, BitVec.and_zero, BitVec.zero_or, BitVec.not_zero, BitVec.and_allOnes]

/-- Settles O10: all but BM is `State.reset` field by field; BM has no defined bit while DONE = 0. -/
theorem resetGivesTheTableValues : Obligations.ResetGivesTheTableValues := by
  refine ⟨rfl, rfl, rfl, rfl, rfl, rfl, rfl, rfl, rfl, rfl, rfl, rfl, rfl, fun m => ?_, rfl, fun y => ?_, fun i => ?_⟩
  · simp
  · exact bitmapWord_of_not_done rfl y.val
  · simp [State.codeword]

/-- Settles O50, over the values of the five flags. -/
theorem statusWordHoldsTheFlags : Obligations.StatusWordHoldsTheFlags := by
  rintro ⟨valid, done, evres, moduleBit, ill⟩
  revert valid done evres moduleBit ill
  decide

/-- The blocks of the register map: PEN, BM and CWW, one word per entry (R34). -/
theorem regAt_pen (m : Fin 8) : regAt (0x080 + 4 * m.val) = .pen m := by revert m; decide

theorem regAt_bm (y : Fin 29) : regAt (0x100 + 4 * y.val) = .bm y := by revert y; decide

theorem regAt_cww (i : Fin 70) : regAt (0x200 + 4 * i.val) = .cww i := by revert i; decide

/-- The gaps of the register map are reserved (R54). -/
theorem regAt_reserved {off : Nat} (h4 : off % 4 = 0)
    (h : (0x048 < off ∧ off < 0x080) ∨ (0x0A0 ≤ off ∧ off < 0x100) ∨ (0x174 ≤ off ∧ off < 0x200) ∨ 0x318 ≤ off) :
    regAt off = .reserved := by
  have hpen : ¬(0x080 ≤ off ∧ (off - 0x080) / 4 < 8) := by omega
  have hbm : ¬(0x100 ≤ off ∧ (off - 0x100) / 4 < 29) := by omega
  have hcww : ¬(0x200 ≤ off ∧ (off - 0x200) / 4 < 70) := by omega
  unfold regAt
  split
  case h_20 => rw [dif_neg hpen, dif_neg hbm, dif_neg hcww]
  all_goals omega

/-- A bit of a row word: the stored module inside the symbol, and a free value everywhere else (R52, R271). -/
theorem getLsbD_bitmapWord_eq_ite (s : State) (y : Fin 29) {x : Nat} (hx : x < 32) :
    (s.bitmapWord y.val).getLsbD (31 - x) =
      if s.status.done = true ∧ x < s.ctx.size.toNat ∧ y.val < s.ctx.size.toNat then s.bitmap.rows[y].getLsbD (31 - x)
      else (Config.freeRow s.bitmap.draw y.val).getLsbD (31 - x) := by
  rw [getLsbD_bitmapWord s y.val hx]
  split
  case isTrue h =>
    obtain ⟨hdone, hxs, hys⟩ := h
    simp [moduleAt_inside hdone hxs hys, Bitmap.row]
  case isFalse h => exact moduleAt_outside h

/-- A codeword entry reads as its byte, or as a free low byte when it is unwritten (R276). -/
theorem readReg_cww {s : State} {i : Fin 70} :
    (∀ b : Byte, s.codeword i.val = some b → readReg (.cww i) s = b.setWidth 32) ∧
      (readReg (.cww i) s).extractLsb' 8 24 = 0#24 := by
  have hcw : s.codeword i.val = s.cw[i] := by simp [State.codeword]
  refine ⟨fun b hb => ?_, ?_⟩
  · rw [hcw] at hb
    simp only [readReg, hb, Option.getD_some]
  · ext j hj
    simp [readReg]

/-- An aligned read of the register space answers the register's value and changes nothing of the block (R78, R271, R276, R277). -/
theorem step_regRead {s : State} {off : Nat} {rest : List HostEvent} (hp : s.pending = .regRead off 4 :: rest)
    (h4 : off % 4 = 0) (hoff : off ≤ 0x3FC) :
    step s = .next { s with pending := rest, readLog := readReg (regAt off) s :: s.readLog, draws := s.draws + 1 } := by
  have hacc : regAccessible off 4 = true := by simp [regAccessible, h4, hoff]
  have hread : readReg (regAt off) { s with pending := rest } = readReg (regAt off) s := by cases regAt off <;> rfl
  rw [step_of_pending hp]
  simp only [runEvent, hostRead, hacc, if_true, hread]

/-- Settles O49: each clause is the value of the register that the map has at that offset. -/
theorem hostReadsReturnTheRegisters : Obligations.HostReadsReturnTheRegisters := by
  intro s off rest hp h4 hoff
  refine ⟨readReg (regAt off) s, step_regRead hp h4 hoff, ?named, ?pen, ?bm, ?cww, ?reserved⟩
  case named =>
    rintro o value hmem rfl
    simp only [List.mem_cons, Prod.mk.injEq, List.not_mem_nil, or_false] at hmem
    casesm* _ ∨ _ <;> (obtain ⟨rfl, rfl⟩ := ‹_ ∧ _›; rfl)
  case pen =>
    rintro m rfl
    rw [regAt_pen]
    rfl
  case bm =>
    rintro y rfl
    rw [regAt_bm]
    exact ⟨rfl, fun x hx => getLsbD_bitmapWord_eq_ite s y hx⟩
  case cww =>
    rintro i rfl
    rw [regAt_cww]
    exact ⟨readReg_cww.1, fun _ => readReg_cww.2⟩
  case reserved =>
    intro hgap
    rw [regAt_reserved h4 hgap]
    rfl

/-! ### The format information of the symbol in BM -/

/-- Module (x, y) of version `v` holds bit `i` of the format word, and no fixed pattern reaches it (R187, R189). -/
def holdsFormatBit (v x y i : Nat) : Bool :=
  let n := sideOf v
  decide (x < n) && decide (y < n) && formatBit n x y == some i &&
    !(isFinder n x y || isSeparator n x y || isTiming n x y || isDarkModule n x y || isAlignment v x y)

/-- A module of a format copy has its bit of the format word in every complete grid, whatever the stream (R196, R202). -/
theorem placeGrid_format {v x y i : Nat} (hv : v ≤ 3) (stream : List Byte) (m : BitVec 3)
    (h : holdsFormatBit v x y i = true) : placeGrid v stream m x y = (fmtWord m).getLsbD i := by
  simp only [holdsFormatBit, Bool.and_eq_true, decide_eq_true_eq, beq_iff_eq, Bool.not_eq_true', Bool.or_eq_false_iff] at h
  obtain ⟨⟨⟨hx, hy⟩, hbit⟩, ⟨⟨⟨hfinder, hsep⟩, htiming⟩, hdark⟩, halign⟩ := h
  rw [placeGrid_reserved stream m hv hx hy (by simp [reserved, hbit])]
  simp [functionModule, hfinder, hsep, htiming, hdark, halign, hbit]

/-- Both format copies are clear of the fixed patterns, and bit `i` stands at `A(i)` and at `B(i)` (R189, R194, R195). -/
theorem holdsFormatBit_copies :
    ∀ v ∈ [1, 2, 3], ∀ p ∈ formatA.zipIdx ++ (formatB (sideOf v)).zipIdx, holdsFormatBit v p.1.1 p.1.2 p.2 = true := by
  decide

/-- The dark module is dark in every complete grid (R185, R202). -/
theorem placeGrid_dark {v : Nat} (hv : v ∈ [1, 2, 3]) (stream : List Byte) (m : BitVec 3) :
    placeGrid v stream m 8 (sideOf v - 8) = true := by
  have hfixed : ∀ v ∈ [1, 2, 3], v ≤ 3 ∧ 8 < sideOf v ∧ sideOf v - 8 < sideOf v ∧
      reserved v 8 (sideOf v - 8) = true ∧ ∀ m, functionModule v m 8 (sideOf v - 8) = true := by decide
  obtain ⟨hle, hx, hy, hres, hdark⟩ := hfixed v hv
  rw [placeGrid_reserved stream m hle hx hy hres, hdark]

/-- With DONE = 1 the row words the host reads hold the complete grid of MASK_SEL (R61 c, R271). -/
theorem Inv.bitmapWord_eq_placeGrid {s : State} (h : Inv s) (hdone : s.status.done = true) :
    s.ctx.version.toNat ∈ [1, 2, 3] ∧ s.ctx.size.toNat = sideOf s.ctx.version.toNat ∧
      ∃ stream, ∀ x y, x < sideOf s.ctx.version.toNat → y < sideOf s.ctx.version.toNat →
        (s.bitmapWord y).getLsbD (31 - x) = placeGrid s.ctx.version.toNat stream s.maskSel x y := by
  obtain ⟨hver, stream, -, hsym⟩ := h.done hdone
  have hle := version_le s.ctx
  have hside := (Context.consistent_of_version h.context hver).1
  refine ⟨by simp only [List.mem_cons, List.not_mem_nil, or_false]; omega, hside, stream, fun x y hx hy => ?_⟩
  have hx32 : x < 32 := by unfold sideOf at hx; omega
  rw [getLsbD_bitmapWord s y hx32]
  exact hsym x y (hside ▸ hx) (hside ▸ hy)

/-- With DONE = 1 a format module read from BM holds its bit of the format word of MASK_SEL (R61 c, R196). -/
theorem Inv.bitmapWord_format {s : State} (h : Inv s) (hdone : s.status.done = true) {x y i : Nat}
    (hmem : ((x, y), i) ∈ formatA.zipIdx ++ (formatB (sideOf s.ctx.version.toNat)).zipIdx) :
    (s.bitmapWord y).getLsbD (31 - x) = (fmtWord s.maskSel).getLsbD i := by
  obtain ⟨hver, -, stream, hbm⟩ := h.bitmapWord_eq_placeGrid hdone
  have hbit := holdsFormatBit_copies _ hver _ hmem
  have hin : x < sideOf s.ctx.version.toNat ∧ y < sideOf s.ctx.version.toNat := by
    simp only [holdsFormatBit, Bool.and_eq_true, decide_eq_true_eq] at hbit
    obtain ⟨⟨hin, -⟩, -⟩ := hbit
    exact hin
  rw [hbm x y hin.1 hin.2, placeGrid_format (version_le _) stream s.maskSel hbit]

/-- Bit `i` of copy B is at `B(i)` (R195). -/
theorem getElem?_formatB {n i : Nat} (hi : i < 15) :
    (formatB n)[i]? = some (if i < 8 then (n - 1 - i, 8) else (8, n - 15 + i)) := by
  simp [formatB, hi]

/-- Settles O58: BM holds a complete grid of MASK_SEL, and every complete grid has its mask's format word in both copies. -/
theorem symbolInBitmapNamesItsMask : Obligations.SymbolInBitmapNamesItsMask := by
  intro s hs hdone
  obtain ⟨hver, hside, stream, hbm⟩ := hs.bitmapWord_eq_placeGrid hdone
  have hA : ∀ i x y, formatA[i]? = some (x, y) → (s.bitmapWord y).getLsbD (31 - x) = (fmtWord s.maskSel).getLsbD i :=
    fun i x y hi => hs.bitmapWord_format hdone (List.mem_append_left _ (List.mk_mem_zipIdx_iff_getElem?.mpr hi))
  have hB : ∀ i x y, (formatB (sideOf s.ctx.version.toNat))[i]? = some (x, y) →
      (s.bitmapWord y).getLsbD (31 - x) = (fmtWord s.maskSel).getLsbD i :=
    fun i x y hi => hs.bitmapWord_format hdone (List.mem_append_right _ (List.mk_mem_zipIdx_iff_getElem?.mpr hi))
  have hdark : (s.bitmapWord (sideOf s.ctx.version.toNat - 8)).getLsbD (31 - 8) = true := by
    rw [hbm 8 _ (by unfold sideOf; omega) (by unfold sideOf; omega), placeGrid_dark hver]
  rw [hside]
  refine ⟨hA, fun i hi => hB i _ _ ?_, fun i hi hi' => hB i _ _ ?_, hdark⟩
  · rw [getElem?_formatB (by omega), if_pos hi]
  · rw [getElem?_formatB hi', if_neg (by omega)]

end Sys2Proof.Machine

/-! # Host memory: when the assembler's input is read, and what a store does while a command runs -/

namespace Sys2Proof.Machine

/-! ### The assembler's input -/

/-- A read answers bytes exactly when its range does not wrap and every byte of it is admitted (R73). -/
theorem exists_readBytes_eq_ok {m : Memory} {a n : Nat} :
    (∃ input, m.readBytes a n = .ok input) ↔
      (0 < n → a + n ≤ 2 ^ Config.addrW) ∧ ∀ i, i < n → (m.read (a + i)).isSome = true := by
  constructor
  · rintro ⟨input, hok⟩
    obtain ⟨hlen, hwrap, hread⟩ := readBytes_eq_ok.mp hok
    exact ⟨hwrap, fun i hi => by simp [hread i hi, hlen ▸ hi]⟩
  · rintro ⟨hwrap, hread⟩
    cases hr : m.readBytes a n with
    | ok input => exact ⟨input, rfl⟩
    | error e =>
      obtain ⟨i, hi, -, hbad, -⟩ := readBytes_eq_error.mp hr
      rcases hbad with htop | hnone
      · have := hwrap (by omega)
        omega
      · simpa [hnone] using hread i hi

/-- With a valid context the assembler is stuck at the address its read stops at (R307). -/
theorem assembleFor_refused {word : Word} {s : State} {e : Nat} (hvalid : s.status.valid = true)
    (h : s.hostMem.readBytes s.ctx.addr.toNat s.ctx.inlen.toNat = .error e) :
    assembleFor word s = .refused (.hostReadRefused e) := by
  simp only [assembleFor, requireValid_of_valid hvalid, h]

/-- With a valid context the assembler has a step exactly when its input is read. -/
theorem exists_assembleFor_next {word : Word} {s : State} (hvalid : s.status.valid = true) :
    (∃ t, assembleFor word s = .next t) ↔
      ∃ input, s.hostMem.readBytes s.ctx.addr.toNat s.ctx.inlen.toNat = .ok input := by
  simp [assembleFor_next, hvalid]

/-- Settles O15: the read of the input answers bytes exactly when the range is admitted, and otherwise the first address that is not.
An empty range does not wrap, since CTX_ADDR is below `2^ADDR_W`. -/
theorem assembleRunsExactlyWhenItsInputIsAdmitted : Obligations.AssembleRunsExactlyWhenItsInputIsAdmitted := by
  intro s hvalid
  have haddr := s.ctx.addr.isLt
  refine ⟨(exists_assembleFor_next hvalid).trans (exists_readBytes_eq_ok.trans (and_congr_left' ?_)), ?_⟩
  · simp only [Config.addrW]
    omega
  · intro i hi hbad hgood
    exact assembleFor_refused hvalid (readBytes_eq_error.mpr ⟨i, hi, rfl, hbad, hgood⟩)

/-! ### Contended commands -/

theorem readsHostMemory_iff {i : Instr} : readsHostMemory i = true ↔ i ∈ [.assemble, .encode] := by
  cases i <;> simp [readsHostMemory]

theorem inInputBuffer_iff {s : State} {addr : Word} :
    inInputBuffer s addr = true ↔
      s.ctx.addr.toNat ≤ addr.toNat ∧ addr.toNat < s.ctx.addr.toNat + s.ctx.inlen.toNat := by
  simp [inInputBuffer]

/-- A store into the input buffer of a running ASSEMBLE or ENCODE is a breach (R82, R308). -/
theorem contended_store_violation {s : State} {word a : Word} {b : Byte} (hword : decode word ∈ [.assemble, .encode])
    (hin : inInputBuffer s a = true) : contended word (.store a b) s = .fault (.protocolViolation word (.store a b)) := by
  simp only [contended, readsHostMemory_iff.mpr hword, hin, Bool.and_self, if_true]

/-- Any other store while a command runs is as one after it (log 6). -/
theorem contended_store_after {s : State} {word a : Word} {b : Byte}
    (h : ¬(decode word ∈ [.assemble, .encode] ∧ inInputBuffer s a = true)) :
    contended word (.store a b) s = andThen (exec (decode word) s) fun t => .next (hostStore a b t) := by
  rw [← readsHostMemory_iff, ← Bool.and_eq_true] at h
  simp only [contended, if_neg h]

/-- Settles O57: a second command is always a breach, and a store is one exactly when it is into the buffer that the command reads. -/
theorem contendedCommandsViolateTheProtocol : Obligations.ContendedCommandsViolateTheProtocol := by
  intro s word other a b rest
  refine ⟨fun hp => ?command, fun hp hword hlow hhigh => ?inside, fun hp hout => ?outside⟩
  case command => exact step_of_pending hp
  case inside => exact (step_of_pending hp).trans (contended_store_violation hword (inInputBuffer_iff.mpr ⟨hlow, hhigh⟩))
  case outside =>
    refine (step_of_pending hp).trans (contended_store_after fun ⟨hword, hin⟩ => ?_)
    obtain ⟨hlow, hhigh⟩ := inInputBuffer_iff.mp hin
    rcases hout with hother | hbelow | habove
    · exact hother hword
    · exact absurd hlow (Nat.not_le_of_lt hbelow)
    · exact absurd hhigh (Nat.not_lt_of_le habove)

end Sys2Proof.Machine

/-! # Encoding: the opcode map, the formats, and what the host's lines write -/

namespace Sys2Proof

/-! ### The opcode map -/

/-- A word that a row accepts has, in every field that the row's mask covers, the row's own value. -/
theorem extractLsb'_of_accepts {r : OpRow} {w : Word} {start len : Nat} (hacc : r.accepts w = true)
    (hmask : r.mask.extractLsb' start len = BitVec.allOnes len) :
    w.extractLsb' start len = r.value.extractLsb' start len := by
  have hvalue : w &&& r.mask = r.value := beq_iff_eq.mp hacc
  rw [← hvalue, BitVec.extractLsb'_and, hmask, BitVec.and_allOnes]

/-- Every row's mask holds bits [3:0] (R97). -/
theorem mask_op_of_mem_opTable : ∀ r ∈ opTable, r.mask.extractLsb' 0 4 = 0xF#4 := by decide

/-- The OP values of the rows differ (R97). -/
theorem nodup_opTable_op : (opTable.map fun r => r.value.extractLsb' 0 4).Nodup := by decide

/-- A word has the OP of the row that accepts it. -/
theorem op_of_accepts {r : OpRow} {w : Word} (hr : r ∈ opTable) (hacc : r.accepts w = true) :
    w.extractLsb' 0 4 = r.value.extractLsb' 0 4 :=
  extractLsb'_of_accepts hacc (mask_op_of_mem_opTable r hr)

/-- The rows that accept one word are the same row, since they have its OP. -/
theorem row_eq_of_accepts {r r' : OpRow} {w : Word} (hr : r ∈ opTable) (hr' : r' ∈ opTable) (hacc : r.accepts w = true)
    (hacc' : r'.accepts w = true) : r = r' :=
  List.inj_on_of_nodup_map nodup_opTable_op hr hr' ((op_of_accepts hr hacc).symm.trans (op_of_accepts hr' hacc'))

/-- Settles O5: the rows that accept `w` all have the OP of `w`, and no OP stands twice in the map. -/
theorem atMostOneRowAcceptsAWord : Obligations.AtMostOneRowAcceptsAWord := by
  refine ⟨mask_op_of_mem_opTable, nodup_opTable_op, fun w => ?_⟩
  have hnodup : ((opTable.filter fun r => r.accepts w).map fun r => r.value.extractLsb' 0 4).Nodup :=
    nodup_opTable_op.sublist (List.filter_sublist.map _)
  have hop : ∀ op ∈ (opTable.filter fun r => r.accepts w).map fun r => r.value.extractLsb' 0 4,
      op = w.extractLsb' 0 4 := by
    intro op hmem
    obtain ⟨r, hr, rfl⟩ := List.mem_map.mp hmem
    obtain ⟨hr, hacc⟩ := List.mem_filter.mp hr
    exact (op_of_accepts hr hacc).symm
  rw [List.eq_replicate_of_mem hop, List.nodup_replicate] at hnodup
  simpa using hnodup

/-- The row that accepts a word is the one that decodes it. -/
theorem decode_of_accepts {r : OpRow} {w : Word} (hr : r ∈ opTable) (hacc : r.accepts w = true) : decode w = r.build w := by
  unfold decode
  cases hfind : opTable.find? (fun r => r.accepts w) with
  | none => exact absurd hacc (List.find?_eq_none.mp hfind r hr)
  | some r' =>
    have hacc' : r'.accepts w = true := List.find?_some (p := fun r : OpRow => r.accepts w) hfind
    rw [row_eq_of_accepts hr (List.mem_of_find?_eq_some hfind) hacc hacc']

theorem decode_of_not_accepts {w : Word} (h : ∀ r ∈ opTable, ¬ r.accepts w = true) : decode w = .illegal w := by
  unfold decode
  rw [List.find?_eq_none.mpr h]

/-! ### The formats -/

/-- The OP of a word by the format it selects (R91 to R94, R96), or reserved (R99). -/
theorem op_format_cases (w : Word) :
    (w.extractLsb' 0 4).toNat ∈ [0x0, 0x2, 0x4, 0x5, 0x7, 0x8] ∨ (w.extractLsb' 0 4).toNat = 0x1 ∨
      (w.extractLsb' 0 4).toNat = 0x3 ∨ (w.extractLsb' 0 4).toNat ∈ [0x6, 0x9] ∨ 0xA ≤ (w.extractLsb' 0 4).toNat := by
  generalize w.extractLsb' 0 4 = op
  revert op
  decide

theorem legalWord_iff_of_formatN {w : Word} (h : (w.extractLsb' 0 4).toNat ∈ [0x0, 0x2, 0x4, 0x5, 0x7, 0x8]) :
    legalWord w = true ↔ w.extractLsb' 4 28 = 0#28 := by
  simp only [List.mem_cons, List.not_mem_nil, or_false] at h
  rcases h with h | h | h | h | h | h <;> simp [legalWord, h]

theorem legalWord_iff_of_formatE {w : Word} (h : (w.extractLsb' 0 4).toNat = 0x1) :
    legalWord w = true ↔ w.extractLsb' 4 4 = 0#4 ∧ w.extractLsb' 12 4 = 0#4 := by
  simp [legalWord, h]

theorem legalWord_iff_of_formatXY {w : Word} (h : (w.extractLsb' 0 4).toNat = 0x3) :
    legalWord w = true ↔ w.extractLsb' 4 4 = 0#4 ∧ w.extractLsb' 13 3 = 0#3 ∧ w.extractLsb' 21 11 = 0#11 := by
  simp [legalWord, h, and_assoc]

theorem legalWord_iff_of_formatM {w : Word} (h : (w.extractLsb' 0 4).toNat ∈ [0x6, 0x9]) :
    legalWord w = true ↔ w.extractLsb' 4 4 = 0#4 ∧ w.extractLsb' 11 21 = 0#21 := by
  simp only [List.mem_cons, List.not_mem_nil, or_false] at h
  rcases h with h | h <;> simp [legalWord, h]

theorem legalWord_of_reserved {w : Word} (h : 0xA ≤ (w.extractLsb' 0 4).toNat) : legalWord w = false := by
  unfold legalWord
  split
  case h_11 => rfl
  all_goals omega

/-- The row fixes every bit of this field at 0. -/
def OpRow.fixesZero (r : OpRow) (start len : Nat) : Prop :=
  r.mask.extractLsb' start len = BitVec.allOnes len ∧ r.value.extractLsb' start len = 0#len

/-- Every row fixes at 0 what the format of its OP fixes at 0 (R91 to R94, R96). -/
theorem fixesZero_of_mem_opTable : ∀ r ∈ opTable,
    ((r.value.extractLsb' 0 4).toNat ∈ [0x0, 0x2, 0x4, 0x5, 0x7, 0x8] ∧ r.fixesZero 4 28) ∨
      ((r.value.extractLsb' 0 4).toNat = 0x1 ∧ r.fixesZero 4 4 ∧ r.fixesZero 12 4) ∨
      ((r.value.extractLsb' 0 4).toNat = 0x3 ∧ r.fixesZero 4 4 ∧ r.fixesZero 13 3 ∧ r.fixesZero 21 11) ∨
      ((r.value.extractLsb' 0 4).toNat ∈ [0x6, 0x9] ∧ r.fixesZero 4 4 ∧ r.fixesZero 11 21) := by
  unfold OpRow.fixesZero
  decide

theorem extractLsb'_eq_zero_of_accepts {r : OpRow} {w : Word} {start len : Nat} (hacc : r.accepts w = true)
    (hfix : r.fixesZero start len) : w.extractLsb' start len = 0#len :=
  (extractLsb'_of_accepts hacc hfix.1).trans hfix.2

/-- Only words that the prose of the formats makes commands are accepted by a row of R96. -/
theorem legalWord_of_accepts {r : OpRow} {w : Word} (hr : r ∈ opTable) (hacc : r.accepts w = true) : legalWord w = true := by
  have hrow := fixesZero_of_mem_opTable r hr
  rw [← op_of_accepts hr hacc] at hrow
  rcases hrow with ⟨hop, h4⟩ | ⟨hop, h4, h12⟩ | ⟨hop, h4, h13, h21⟩ | ⟨hop, h4, h11⟩
  · exact (legalWord_iff_of_formatN hop).mpr (extractLsb'_eq_zero_of_accepts hacc h4)
  · exact (legalWord_iff_of_formatE hop).mpr
      ⟨extractLsb'_eq_zero_of_accepts hacc h4, extractLsb'_eq_zero_of_accepts hacc h12⟩
  · exact (legalWord_iff_of_formatXY hop).mpr
      ⟨extractLsb'_eq_zero_of_accepts hacc h4, extractLsb'_eq_zero_of_accepts hacc h13, extractLsb'_eq_zero_of_accepts hacc h21⟩
  · exact (legalWord_iff_of_formatM hop).mpr
      ⟨extractLsb'_eq_zero_of_accepts hacc h4, extractLsb'_eq_zero_of_accepts hacc h11⟩

/-- A word that the formats make no command decodes to ILLEGAL (R98). -/
theorem decode_of_not_legalWord {w : Word} (h : legalWord w = false) : decode w = .illegal w :=
  decode_of_not_accepts fun _ hr hacc => by simp [legalWord_of_accepts hr hacc] at h

/-! ### The operand fields of an encoded word -/

@[simp] theorem fieldVer_formatE (len : BitVec 16) (ver op : BitVec 4) : fieldVer (formatE len ver op) = ver := by
  rw [fieldVer, formatE, BitVec.extractLsb'_append_eq_of_le (by decide), BitVec.extractLsb'_append_eq_of_le (by decide),
    BitVec.extractLsb'_append_eq_of_add_le (by decide), BitVec.extractLsb'_eq_self]

@[simp] theorem fieldLen_formatE (len : BitVec 16) (ver op : BitVec 4) : fieldLen (formatE len ver op) = len := by
  rw [fieldLen, formatE, BitVec.extractLsb'_append_eq_of_le (by decide), BitVec.extractLsb'_append_eq_of_le (by decide),
    BitVec.extractLsb'_append_eq_of_le (by decide), BitVec.extractLsb'_append_eq_of_le (by decide), BitVec.extractLsb'_eq_self]

@[simp] theorem fieldM_formatM (m : BitVec 3) (op : BitVec 4) : fieldM (formatM m op) = m := by
  rw [fieldM, formatM, BitVec.extractLsb'_append_eq_of_le (by decide), BitVec.extractLsb'_append_eq_of_le (by decide),
    BitVec.extractLsb'_append_eq_of_add_le (by decide), BitVec.extractLsb'_eq_self]

@[simp] theorem fieldX_formatXY (y x : BitVec 5) (op : BitVec 4) : fieldX (formatXY y x op) = x := by
  rw [fieldX, formatXY, BitVec.extractLsb'_append_eq_of_le (by decide), BitVec.extractLsb'_append_eq_of_le (by decide),
    BitVec.extractLsb'_append_eq_of_add_le (by decide), BitVec.extractLsb'_eq_self]

@[simp] theorem fieldY_formatXY (y x : BitVec 5) (op : BitVec 4) : fieldY (formatXY y x op) = y := by
  rw [fieldY, formatXY, BitVec.extractLsb'_append_eq_of_le (by decide), BitVec.extractLsb'_append_eq_of_le (by decide),
    BitVec.extractLsb'_append_eq_of_le (by decide), BitVec.extractLsb'_append_eq_of_le (by decide),
    BitVec.extractLsb'_append_eq_of_add_le (by decide), BitVec.extractLsb'_eq_self]

/-- An instruction whose word the row at its OP accepts is what its word decodes to, when that row builds it. -/
theorem decode_encode_of_row {i : Instr}
    (hrow : ∃ r, opTable[i.op.toNat]? = some r ∧ r.accepts (encode i) = true)
    (hbuild : (opTable[i.op.toNat]?.map fun r => r.build (encode i)) = some i) : decode (encode i) = i := by
  obtain ⟨r, hr, hacc⟩ := hrow
  rw [hr] at hbuild
  exact (decode_of_accepts (List.mem_of_getElem? hr) hacc).trans (Option.some.inj hbuild)

/-- Settles O2: the row at a command's OP accepts the command's word and reads the operands back; no row accepts the word of a
well-formed ILLEGAL. -/
theorem encodedInstructionsDecodeToThemselves : Obligations.EncodedInstructionsDecodeToThemselves := by
  intro i hi
  cases i with
  | nop => exact decode_encode_of_row (Laws.FixedBits.nop hi).2 rfl
  | evaluate ver len =>
    exact decode_encode_of_row (Laws.FixedBits.evaluate ver len hi).2
      (congrArg some (congrArg₂ Instr.evaluate (fieldVer_formatE len ver _) (fieldLen_formatE len ver _)))
  | encode => exact decode_encode_of_row (Laws.FixedBits.encode hi).2 rfl
  | getModule x y =>
    exact decode_encode_of_row (Laws.FixedBits.getModule x y hi).2
      (congrArg some (congrArg₂ Instr.getModule (fieldX_formatXY y x _) (fieldY_formatXY y x _)))
  | assemble => exact decode_encode_of_row (Laws.FixedBits.assemble hi).2 rfl
  | rsEncode => exact decode_encode_of_row (Laws.FixedBits.rsEncode hi).2 rfl
  | place m =>
    exact decode_encode_of_row (Laws.FixedBits.place m hi).2 (congrArg some (congrArg Instr.place (fieldM_formatM m _)))
  | score => exact decode_encode_of_row (Laws.FixedBits.score hi).2 rfl
  | select => exact decode_encode_of_row (Laws.FixedBits.select hi).2 rfl
  | formatWord m =>
    exact decode_encode_of_row (Laws.FixedBits.formatWord m hi).2
      (congrArg some (congrArg Instr.formatWord (fieldM_formatM m _)))
  | illegal w => exact decode_of_not_legalWord (Laws.FixedBits.illegal w hi).2

/-! ### Every legal word is its format with its own fields -/

theorem formatN_of_fixedBits {w : Word} {op : BitVec 4} (hop : w.extractLsb' 0 4 = op) (h4 : w.extractLsb' 4 28 = 0#28) :
    formatN op = w := by
  rw [formatN, ← hop, ← h4, BitVec.extractLsb'_append_extractLsb'_eq_extractLsb' (by decide), BitVec.extractLsb'_eq_self]

theorem formatE_of_fixedBits {w : Word} {op : BitVec 4} (hop : w.extractLsb' 0 4 = op) (h4 : w.extractLsb' 4 4 = 0#4)
    (h12 : w.extractLsb' 12 4 = 0#4) : formatE (fieldLen w) (fieldVer w) op = w := by
  have hsplit : w.extractLsb' 16 16 ++ w.extractLsb' 12 4 ++ w.extractLsb' 8 4 ++ w.extractLsb' 4 4 ++ w.extractLsb' 0 4 = w := by
    iterate 4 rw [BitVec.extractLsb'_append_extractLsb'_eq_extractLsb' (by decide)]
    exact BitVec.extractLsb'_eq_self
  rwa [hop, h4, h12] at hsplit

theorem formatM_of_fixedBits {w : Word} {op : BitVec 4} (hop : w.extractLsb' 0 4 = op) (h4 : w.extractLsb' 4 4 = 0#4)
    (h11 : w.extractLsb' 11 21 = 0#21) : formatM (fieldM w) op = w := by
  have hsplit : w.extractLsb' 11 21 ++ w.extractLsb' 8 3 ++ w.extractLsb' 4 4 ++ w.extractLsb' 0 4 = w := by
    iterate 3 rw [BitVec.extractLsb'_append_extractLsb'_eq_extractLsb' (by decide)]
    exact BitVec.extractLsb'_eq_self
  rwa [hop, h4, h11] at hsplit

theorem formatXY_of_fixedBits {w : Word} {op : BitVec 4} (hop : w.extractLsb' 0 4 = op) (h4 : w.extractLsb' 4 4 = 0#4)
    (h13 : w.extractLsb' 13 3 = 0#3) (h21 : w.extractLsb' 21 11 = 0#11) : formatXY (fieldY w) (fieldX w) op = w := by
  have hsplit : w.extractLsb' 21 11 ++ w.extractLsb' 16 5 ++ w.extractLsb' 13 3 ++ w.extractLsb' 8 5 ++ w.extractLsb' 4 4 ++
      w.extractLsb' 0 4 = w := by
    iterate 5 rw [BitVec.extractLsb'_append_extractLsb'_eq_extractLsb' (by decide)]
    exact BitVec.extractLsb'_eq_self
  rwa [hop, h4, h13, h21] at hsplit

/-- The command that a word's OP names, with the operands that its format reads from the word (R91 to R96). -/
def commandOf (w : Word) : Instr :=
  match (w.extractLsb' 0 4).toNat with
  | 0x0 => .nop
  | 0x1 => .evaluate (fieldVer w) (fieldLen w)
  | 0x2 => .encode
  | 0x3 => .getModule (fieldX w) (fieldY w)
  | 0x4 => .assemble
  | 0x5 => .rsEncode
  | 0x6 => .place (fieldM w)
  | 0x7 => .score
  | 0x8 => .select
  | 0x9 => .formatWord (fieldM w)
  | _ => .illegal w

/-- A legal word is the word of the command that its OP and its fields name. -/
theorem encode_commandOf {w : Word} (h : legalWord w = true) : WellFormed (commandOf w) ∧ encode (commandOf w) = w := by
  unfold commandOf
  split
  case h_1 hop | h_3 hop | h_5 hop | h_6 hop | h_8 hop | h_9 hop =>
    rw [legalWord_iff_of_formatN (by simp [hop])] at h
    exact ⟨rfl, formatN_of_fixedBits (BitVec.eq_of_toNat_eq hop) h⟩
  case h_2 hop =>
    obtain ⟨h4, h12⟩ := (legalWord_iff_of_formatE hop).mp h
    exact ⟨rfl, formatE_of_fixedBits (BitVec.eq_of_toNat_eq hop) h4 h12⟩
  case h_4 hop =>
    obtain ⟨h4, h13, h21⟩ := (legalWord_iff_of_formatXY hop).mp h
    exact ⟨rfl, formatXY_of_fixedBits (BitVec.eq_of_toNat_eq hop) h4 h13 h21⟩
  case h_7 hop | h_10 hop =>
    obtain ⟨h4, h11⟩ := (legalWord_iff_of_formatM (by simp [hop])).mp h
    exact ⟨rfl, formatM_of_fixedBits (BitVec.eq_of_toNat_eq hop) h4 h11⟩
  case h_11 =>
    have hreserved : 0xA ≤ (w.extractLsb' 0 4).toNat := by
      simp only [imp_false] at *
      omega
    simp [legalWord_of_reserved hreserved] at h

/-- A legal word decodes to the command that its OP and its fields name. -/
theorem decode_of_legalWord {w : Word} (h : legalWord w = true) : decode w = commandOf w := by
  obtain ⟨hwf, henc⟩ := encode_commandOf h
  have hdec := encodedInstructionsDecodeToThemselves (commandOf w) hwf
  rwa [henc] at hdec

/-- Settles O3: a legal word decodes to the command it is the word of, and any other word is the word of its ILLEGAL. -/
theorem everyWordIsTheEncodingOfItsDecoding : Obligations.EveryWordIsTheEncodingOfItsDecoding := by
  intro w
  cases h : legalWord w with
  | true =>
    rw [decode_of_legalWord h]
    exact encode_commandOf h
  | false =>
    rw [decode_of_not_legalWord h]
    exact ⟨by simp [WellFormed, Instr.wellFormed, h], rfl⟩

theorem decode_eq_illegal_iff {w : Word} : decode w = .illegal w ↔ legalWord w = false := by
  refine ⟨fun h => ?_, decode_of_not_legalWord⟩
  obtain ⟨hwf, -⟩ := everyWordIsTheEncodingOfItsDecoding w
  simpa [h, WellFormed, Instr.wellFormed] using hwf

/-- Settles O4: ILLEGAL are exactly the words that their format makes no command, format by format, and a legal word is the command
of its OP and its fields. -/
theorem wordsDecodeByOpcodeAndFixedBits : Obligations.WordsDecodeByOpcodeAndFixedBits := by
  intro w
  refine ⟨decode_eq_illegal_iff.trans ?illegal, fun h => ?command⟩
  case illegal =>
    rcases op_format_cases w with hop | hop | hop | hop | hop
    · rw [← Bool.not_eq_true, legalWord_iff_of_formatN hop]
      simp only [List.mem_cons, List.not_mem_nil, or_false] at hop
      rcases hop with hop | hop | hop | hop | hop | hop <;> simp [hop]
    · rw [← Bool.not_eq_true, legalWord_iff_of_formatE hop, not_and_or]
      simp [hop]
    · rw [← Bool.not_eq_true, legalWord_iff_of_formatXY hop, not_and_or, not_and_or]
      simp [hop]
    · rw [← Bool.not_eq_true, legalWord_iff_of_formatM hop, not_and_or]
      simp only [List.mem_cons, List.not_mem_nil, or_false] at hop
      rcases hop with hop | hop <;> simp [hop]
    · exact iff_of_true (legalWord_of_reserved hop) (.inl hop)
  case command =>
    rw [Ne, decode_eq_illegal_iff, Bool.not_eq_false] at h
    exact decode_of_legalWord h

/-! ### The lines of a host program -/

theorem toNat_formatE (len : BitVec 16) (ver op : BitVec 4) :
    (formatE len ver op).toNat = len.toNat <<< 16 ||| ver.toNat <<< 8 ||| op.toNat := by
  unfold formatE
  iterate 4 rw [BitVec.toNat_append]
  simp [Nat.shiftLeft_or_distrib, ← Nat.shiftLeft_add]

theorem toNat_formatM (m : BitVec 3) (op : BitVec 4) : (formatM m op).toNat = m.toNat <<< 8 ||| op.toNat := by
  unfold formatM
  iterate 3 rw [BitVec.toNat_append]
  simp [← Nat.shiftLeft_add]

theorem toNat_formatXY (y x : BitVec 5) (op : BitVec 4) :
    (formatXY y x op).toNat = y.toNat <<< 16 ||| x.toNat <<< 8 ||| op.toNat := by
  unfold formatXY
  iterate 5 rw [BitVec.toNat_append]
  simp [Nat.shiftLeft_or_distrib, ← Nat.shiftLeft_add]

/-- Format E from numbers in range, as the line of R102 puts it together. -/
theorem formatE_ofNat {len ver : Nat} (hlen : len < 65536) (hver : ver < 16) (op : BitVec 4) :
    formatE (BitVec.ofNat 16 len) (BitVec.ofNat 4 ver) op = BitVec.ofNat 32 (len <<< 16 ||| ver <<< 8 ||| op.toNat) := by
  have hword := toNat_formatE (BitVec.ofNat 16 len) (BitVec.ofNat 4 ver) op
  rw [BitVec.toNat_ofNat, BitVec.toNat_ofNat, Nat.mod_eq_of_lt hlen, Nat.mod_eq_of_lt hver] at hword
  rw [← hword, BitVec.ofNat_toNat, BitVec.setWidth_eq]

/-- Format M from a number in range (R102). -/
theorem formatM_ofNat {m : Nat} (hm : m < 8) (op : BitVec 4) :
    formatM (BitVec.ofNat 3 m) op = BitVec.ofNat 32 (m <<< 8 ||| op.toNat) := by
  have hword := toNat_formatM (BitVec.ofNat 3 m) op
  rw [BitVec.toNat_ofNat, Nat.mod_eq_of_lt hm] at hword
  rw [← hword, BitVec.ofNat_toNat, BitVec.setWidth_eq]

/-- Format XY from numbers in range (R102). -/
theorem formatXY_ofNat {y x : Nat} (hy : y < 32) (hx : x < 32) (op : BitVec 4) :
    formatXY (BitVec.ofNat 5 y) (BitVec.ofNat 5 x) op = BitVec.ofNat 32 (y <<< 16 ||| x <<< 8 ||| op.toNat) := by
  have hword := toNat_formatXY (BitVec.ofNat 5 y) (BitVec.ofNat 5 x) op
  rw [BitVec.toNat_ofNat, BitVec.toNat_ofNat, Nat.mod_eq_of_lt hy, Nat.mod_eq_of_lt hx] at hword
  rw [← hword, BitVec.ofNat_toNat, BitVec.setWidth_eq]

end Sys2Proof

namespace Sys2Proof.Machine

theorem accesses_evaluate {v len : Nat} (hv : v < 16) (hlen : len < 65536) :
    (HostLine.evaluate v len).accesses =
      some [.regWrite 0x000 4 (encode (.evaluate (BitVec.ofNat 4 v) (BitVec.ofNat 16 len)))] := by
  rw [HostLine.accesses, if_pos ⟨hv, hlen⟩, encode, formatE_ofNat hlen hv]
  rfl

theorem accesses_getModule {x y : Nat} (hx : x < 32) (hy : y < 32) :
    (HostLine.getModule x y).accesses =
      some [.regWrite 0x000 4 (encode (.getModule (BitVec.ofNat 5 x) (BitVec.ofNat 5 y)))] := by
  rw [HostLine.accesses, if_pos ⟨hx, hy⟩, encode, formatXY_ofNat hy hx]
  rfl

theorem accesses_place {m : Nat} (hm : m < 8) :
    (HostLine.place m).accesses = some [.regWrite 0x000 4 (encode (.place (BitVec.ofNat 3 m)))] := by
  rw [HostLine.accesses, if_pos hm, encode, formatM_ofNat hm]
  rfl

theorem accesses_formatWord {m : Nat} (hm : m < 8) :
    (HostLine.formatWord m).accesses = some [.regWrite 0x000 4 (encode (.formatWord (BitVec.ofNat 3 m)))] := by
  rw [HostLine.accesses, if_pos hm, encode, formatM_ofNat hm]
  rfl

/-- A line that writes the word of a well-formed instruction writes a word that decodes to it. -/
theorem exists_write_of_accesses {line : HostLine} {i : Instr} (hwf : WellFormed i)
    (h : line.accesses = some [.regWrite 0x000 4 (encode i)]) :
    ∃ w, line.accesses = some [.regWrite 0x000 4 w] ∧ decode w = i :=
  ⟨encode i, h, encodedInstructionsDecodeToThemselves i hwf⟩

/-- Settles O9: each line in range writes the encoder's word of its command, which decodes to it; out of range the check of the
assembler fails. -/
theorem hostLinesWriteTheirCommandWords : Obligations.HostLinesWriteTheirCommandWords := by
  refine ⟨fun v len => ⟨fun hv hlen => ?evaluate, fun hout => if_neg (by omega)⟩,
    fun x y => ⟨fun hx hy => ?getModule, fun hout => if_neg (by omega)⟩,
    fun m => ⟨fun hm => ⟨?place, ?formatWord⟩, fun hout => ⟨if_neg (by omega), if_neg (by omega)⟩⟩, ?fixed, rfl⟩
  case evaluate => exact exists_write_of_accesses rfl (accesses_evaluate hv hlen)
  case getModule => exact exists_write_of_accesses rfl (accesses_getModule hx hy)
  case place => exact exists_write_of_accesses rfl (accesses_place hm)
  case formatWord => exact exists_write_of_accesses rfl (accesses_formatWord hm)
  case fixed =>
    intro line i hmem
    simp only [List.mem_cons, Prod.mk.injEq, List.not_mem_nil, or_false] at hmem
    casesm* _ ∨ _ <;> (obtain ⟨rfl, rfl⟩ := ‹_ ∧ _›; exact exists_write_of_accesses rfl rfl)

/-- Settles O1: seventeen fixed words, each decoded by evaluation. -/
theorem decodeReadsTheSpecsWords : Obligations.DecodeReadsTheSpecsWords := by
  unfold Obligations.DecodeReadsTheSpecsWords
  decide

end Sys2Proof.Machine

/-! # The front end: what EVALUATE leaves, and the closed form of the data codewords -/

namespace Sys2Proof.Machine

/-! ### EVALUATE -/

/-- The feasibility predicate of R110, as the statements about EVALUATE write it. -/
theorem fits_iff {v len : Nat} : fits v len = true ↔ v ∈ [1, 2, 3] ∧ len ≤ capacity v := by
  simp [fits, or_assoc]

theorem exec_evaluate_of_fits {ver : BitVec 4} {len : BitVec 16} {s : State} (h : fits ver.toNat len.toNat = true) :
    exec (.evaluate ver len) s =
      .next { s with ctx := contextFor s.dataAddr ver len, status := s.status.evaluated } :=
  if_pos h

theorem exec_evaluate_of_not_fits {ver : BitVec 4} {len : BitVec 16} {s : State} (h : ¬ fits ver.toNat len.toNat = true) :
    exec (.evaluate ver len) s = .next { s with status := s.status.rejected } :=
  if_neg h

theorem capacity_le (v : Nat) : capacity v ≤ 53 := by
  unfold capacity
  split <;> decide

/-- CTX_VERSION and CTX_INLEN hold the operands of an EVALUATE that succeeds: both fit their registers (R39, R41). -/
theorem contextFor_operands {addr : Word} {ver : BitVec 4} {len : BitVec 16} (h : fits ver.toNat len.toNat = true) :
    (contextFor addr ver len).version.toNat = ver.toNat ∧ (contextFor addr ver len).inlen.toNat = len.toNat := by
  obtain ⟨hver, hlen⟩ := fits_iff.mp h
  have hcap := capacity_le ver.toNat
  simp only [List.mem_cons, List.not_mem_nil, or_false] at hver
  simp only [contextFor, BitVec.toNat_setWidth]
  omega

/-- The rows of R9 and R112: version, capacity, total, data and correction codewords; every version has one block. -/
theorem capacity_layoutOf_of_row {v cap total data ecc : Nat}
    (h : (v, cap, total, data, ecc) ∈ [(1, 17, 26, 19, 7), (2, 32, 44, 34, 10), (3, 53, 70, 55, 15)]) :
    v ∈ [1, 2, 3] ∧ capacity v = cap ∧ layoutOf v = ⟨total, data, ecc, 1⟩ := by
  simp only [List.mem_cons, Prod.mk.injEq, List.not_mem_nil, or_false] at h
  obtain ⟨rfl, rfl, rfl, rfl, rfl⟩ | ⟨rfl, rfl, rfl, rfl, rfl⟩ | ⟨rfl, rfl, rfl, rfl, rfl⟩ := h <;> decide

/-- A version out of range or a length above the capacity of its version does not fit (R110). -/
theorem not_fits_of_infeasible {v len : Nat}
    (h : v ∉ [1, 2, 3] ∨ (v = 1 ∧ 17 < len) ∨ (v = 2 ∧ 32 < len) ∨ (v = 3 ∧ 53 < len)) : ¬ fits v len = true := by
  rw [fits_iff]
  rintro ⟨hver, hlen⟩
  obtain hout | ⟨rfl, habove⟩ | ⟨rfl, habove⟩ | ⟨rfl, habove⟩ := h
  · exact hout hver
  all_goals exact absurd hlen (Nat.not_le_of_lt habove)

/-- Settles O13: the operands fit or they do not, and the context of operands that fit is the row of their version. -/
theorem evaluateReplacesOrInvalidatesTheContext : Obligations.EvaluateReplacesOrInvalidatesTheContext := by
  intro ver len s
  refine ⟨fun v cap total data ecc hrow hv hlen => ?success, fun h => exec_evaluate_of_not_fits (not_fits_of_infeasible h)⟩
  obtain ⟨hmem, hcap, hlay⟩ := capacity_layoutOf_of_row hrow
  subst hv
  have hfits := fits_iff.mpr ⟨hmem, hlen.trans_eq hcap.symm⟩
  obtain ⟨hversion, hinlen⟩ := contextFor_operands (addr := s.dataAddr) hfits
  obtain ⟨hcons, hpos⟩ := contextFor_consistent (addr := s.dataAddr) hfits
  obtain ⟨hsize, -, htotal, hdata, hecc, hnblk⟩ := Context.consistent_of_version hcons hpos
  rw [hversion] at hsize
  rw [hversion, hlay] at htotal hdata hecc hnblk
  exact ⟨_, exec_evaluate_of_fits hfits, rfl, rfl, hversion, hsize, hinlen, htotal, hdata, hecc, hnblk⟩

/-! ### The bits of a byte -/

/-- The bits that `byteOf` reads last are the lowest of the byte (R123). -/
theorem getLsbD_byteOf (bits : List Bool) (i : Nat) :
    (byteOf bits).getLsbD i = (decide (i < 8) && bits.reverse.getD i false) := by
  induction bits using List.reverseRecOn generalizing i with
  | nil => simp [byteOf]
  | append_singleton bits b ih =>
    have hstep : byteOf (bits ++ [b]) = byteOf bits <<< 1 ||| (BitVec.ofBool b).setWidth 8 := by simp [byteOf]
    rw [hstep, BitVec.getLsbD_or, BitVec.getLsbD_shiftLeft, ih, List.reverse_concat]
    cases i with
    | zero => simp
    | succ i => by_cases hi : i + 1 < 8 <;> simp [hi, Nat.lt_of_succ_lt]

theorem reverse_bitsOf (n v : Nat) : (bitsOf n v).reverse = (List.range n).map v.testBit := by
  refine List.ext_getElem (by simp) fun i hi _ => ?_
  rw [List.length_reverse, length_bitsOf] at hi
  have : n - 1 - (n - 1 - i) = i := by omega
  simp [bitsOf, this]

/-- A number's bits are those above its `n` lowest, then those. -/
theorem bitsOf_add (m n v : Nat) : bitsOf (m + n) v = bitsOf m (v >>> n) ++ bitsOf n v := by
  refine List.reverse_injective ?_
  simp only [List.reverse_append, reverse_bitsOf]
  rw [Nat.add_comm, List.range_add, List.map_append, List.map_map]
  congr 2
  funext i
  simp [Nat.testBit_shiftRight]

/-- The byte of the closed form of R124: the low four bits of `a`, then the high four bits of `b`. -/
def joinNibbles (a b : Byte) : Byte := (a &&& 0x0F#8) <<< 4 ||| b >>> 4

theorem joinNibbles_indicator (b : Byte) : joinNibbles 0x04#8 b = 0x40#8 ||| b >>> 4 := by simp [joinNibbles]

theorem joinNibbles_zero (a : Byte) : joinNibbles a 0#8 = (a &&& 0x0F#8) <<< 4 := by simp [joinNibbles]

theorem byteOf_nibbles (a b : Byte) : byteOf (bitsOf 4 a.toNat ++ bitsOf 4 (b >>> 4).toNat) = joinNibbles a b := by
  refine BitVec.eq_of_getLsbD_eq fun i hi => ?_
  have hlow (c : Byte) : (bitsOf 4 c.toNat).reverse = (List.range 4).map c.getLsbD := reverse_bitsOf 4 c.toNat
  simp only [getLsbD_byteOf, List.reverse_append, hlow, joinNibbles]
  interval_cases i <;> simp [List.range_succ]

theorem bitsOf_eight (b : Byte) : bitsOf 8 b.toNat = bitsOf 4 (b >>> 4).toNat ++ bitsOf 4 b.toNat := by
  rw [BitVec.toNat_ushiftRight]
  exact bitsOf_add 4 4 _

/-! ### Packing the bitstream -/

theorem packBits_append {byte : List Bool} (rest : List Bool) (h : byte.length = 8) :
    packBits (byte ++ rest) = byteOf byte :: packBits rest := by
  have hlen : (byte ++ rest).length / 8 = rest.length / 8 + 1 := by simp; omega
  rw [packBits, hlen, List.range_succ_eq_map, List.map_cons, List.map_map]
  refine congrArg₂ List.cons (by simp [← h]) (List.map_congr_left fun i _ => ?_)
  simp [Nat.mul_succ, ← h, Nat.add_comm]

/-- Bytes that follow four bits are packed across the byte boundaries, and four zeros fill the last codeword (R124). -/
theorem packBits_shifted (c : Byte) (us : List Byte) :
    packBits (bitsOf 4 c.toNat ++ (us.flatMap (fun b => bitsOf 8 b.toNat) ++ List.replicate 4 false)) =
      List.zipWith joinNibbles (c :: us) (us ++ [0#8]) := by
  have hpack (a b : Byte) (rest : List Bool) :
      packBits (bitsOf 4 a.toNat ++ (bitsOf 4 (b >>> 4).toNat ++ rest)) = joinNibbles a b :: packBits rest := by
    rw [← List.append_assoc, packBits_append rest (by simp), byteOf_nibbles]
  induction us generalizing c with
  | nil => exact hpack c 0#8 []
  | cons u us ih =>
    rw [List.flatMap_cons, bitsOf_eight, List.append_assoc, List.append_assoc, hpack, ih]
    rfl

/-- The segment leaves half a codeword free, so the terminator and the fill after it are four zeros together (R120, R121). -/
theorem terminatedBits_eq (dataCount : Nat) (input : List Byte) :
    terminatedBits dataCount input = segmentBits input ++ List.replicate 4 false := by
  simp only [terminatedBits, List.append_assoc, List.length_append, List.length_replicate, length_segmentBits,
    List.replicate_append_replicate]
  congr 2
  omega

/-- The `u` of R124: the length, then the input bytes. -/
def segmentBytes (input : List Byte) : List Byte := BitVec.ofNat 8 input.length :: input

@[simp] theorem length_segmentBytes (input : List Byte) : (segmentBytes input).length = input.length + 1 := rfl

/-- The segment is the indicator's four bits, then those of the length and of the input bytes (R117 to R119). -/
theorem segmentBits_eq {input : List Byte} (h : input.length < 256) :
    segmentBits input = bitsOf 4 (0x04#8 : Byte).toNat ++ (segmentBytes input).flatMap fun b => bitsOf 8 b.toNat := by
  have hlength : (BitVec.ofNat 8 input.length).toNat = input.length := by
    rw [BitVec.toNat_ofNat, Nat.mod_eq_of_lt h]
  rw [segmentBytes, List.flatMap_cons, hlength, ← List.append_assoc]
  rfl

/-- The segment's codewords: each joins two consecutive bytes of `0x04, u[0], …, u[L], 0` (R124). -/
theorem packBits_terminatedBits (dataCount : Nat) {input : List Byte} (h : input.length < 256) :
    packBits (terminatedBits dataCount input) =
      List.zipWith joinNibbles (0x04#8 :: segmentBytes input) (segmentBytes input ++ [0#8]) := by
  rw [terminatedBits_eq, segmentBits_eq h, List.append_assoc, packBits_shifted]

/-! ### The closed form -/

theorem getElem?_dataCodewords_segment (dataCount : Nat) {input : List Byte} {j : Nat} (h : input.length < 256)
    (hj : j ≤ input.length + 1) :
    (dataCodewords dataCount input)[j]? =
      some (joinNibbles ((0x04#8 :: segmentBytes input).getD j 0#8) ((segmentBytes input).getD j 0#8)) := by
  have hlow : j < (0x04#8 :: segmentBytes input).length := by simp; omega
  have hzero : (segmentBytes input ++ [0#8])[j]? = some ((segmentBytes input).getD j 0#8) := by
    rcases Nat.lt_or_eq_of_le hj with hin | rfl
    · rw [List.getElem?_append_left hin, List.getElem?_eq_getElem hin, List.getD_eq_getElem _ _ hin]
    · simp [segmentBytes]
  rw [dataCodewords, packBits_terminatedBits dataCount h, List.getElem?_append_left (by simp; omega),
    List.getElem?_zipWith, hzero, List.getElem?_eq_getElem hlow, List.getD_eq_getElem _ _ hlow]

theorem getElem?_dataCodewords_pad {dataCount : Nat} {input : List Byte} {j : Nat} (hj : input.length + 2 + j < dataCount) :
    (dataCodewords dataCount input)[input.length + 2 + j]? = some (if j % 2 = 0 then 0xEC#8 else 0x11#8) := by
  have hpacked : (packBits (terminatedBits dataCount input)).length = input.length + 2 := by
    simp [length_terminatedBits]
  rw [dataCodewords, List.getElem?_append_right (by omega), hpacked]
  have : j < dataCount - (input.length + 2) := by omega
  simp [padCodewords, this]

/-- The input of a valid context, its header and its terminator fit the data codewords (R9, R112). -/
theorem Inv.inlen_add_two_le {s : State} (h : Inv s) (hvalid : s.status.valid = true) :
    s.ctx.inlen.toNat + 2 ≤ s.ctx.lpData.toNat := by
  obtain ⟨-, hinlen, -, hdata, -⟩ := Context.consistent_of_version h.context (h.valid hvalid)
  have hver := h.valid hvalid
  have hle := version_le s.ctx
  have hroom : ∀ v ∈ [1, 2, 3], capacity v + 2 = (layoutOf v).data := by decide
  rw [hdata, ← hroom _ (by simp; omega)]
  omega

theorem exec_assemble_of_admits {s : State} {input : List Byte} (hvalid : s.status.valid = true) (hadm : s.admits input) :
    exec .assemble s = .next (s.writeCodewords 0 (dataCodewords s.ctx.lpData.toNat input)) := by
  obtain ⟨hlen, hwrap, hread⟩ := hadm
  exact assembleFor_next.mpr ⟨hvalid, input, readBytes_eq_ok.mpr ⟨hlen, fun _ => hwrap, hread⟩, rfl⟩

/-- The assembler writes `CW[0..D-1]` and no other entry (R125). -/
theorem codeword_assembled {s : State} {input : List Byte} (h : input.length + 2 ≤ s.ctx.lpData.toNat) (i : Nat) :
    (s.writeCodewords 0 (dataCodewords s.ctx.lpData.toNat input)).codeword i =
      if i < s.ctx.lpData.toNat then (dataCodewords s.ctx.lpData.toNat input)[i]? else s.codeword i := by
  have hwidth := s.ctx.lpData.isLt
  rw [codeword_writeCodewords, length_dataCodewords h, Nat.sub_zero]
  exact if_congr (by omega) rfl rfl

/-- Settles O14: each codeword of the segment joins two neighbours of `0x04, u[0], …, u[L], 0`, and pad codewords fill the rest. -/
theorem assembleWritesTheClosedForm : Obligations.AssembleWritesTheClosedForm := by
  intro s b hinv hvalid hadm
  refine ⟨_, exec_assemble_of_admits hvalid hadm, rfl, ?_⟩
  have hroom := hinv.inlen_add_two_le hvalid
  have hshort := s.ctx.inlen.isLt
  rw [← hadm.1] at hroom hshort ⊢
  intro L D u
  have hu : u = fun j => (segmentBytes b).getD j 0#8 := funext fun j => by cases j <;> rfl
  have hwritten {i : Nat} (hi : i < D) := (codeword_assembled hroom i).trans (if_pos hi)
  have hsegment {j : Nat} (hj : j ≤ L + 1) :=
    (hwritten (by omega)).trans (getElem?_dataCodewords_segment D (by omega) hj)
  have hend : (segmentBytes b).getD (L + 1) 0#8 = 0#8 := List.getD_eq_default _ _ (Nat.le_refl _)
  rw [hu]
  refine ⟨?indicator, fun j hpos hj => ?shifted, ?terminator, fun j hj => ?pad, fun i hi => ?frame⟩
  case indicator => rw [hsegment (Nat.zero_le _), List.getD_cons_zero, joinNibbles_indicator]
  case shifted =>
    obtain ⟨k, rfl⟩ := Nat.exists_eq_succ_of_ne_zero (Nat.ne_of_gt hpos)
    exact hsegment (Nat.le_succ_of_le hj)
  case terminator => rw [hsegment (Nat.le_refl _), hend, joinNibbles_zero, List.getD_cons_succ]
  case pad => exact (hwritten (by omega)).trans (getElem?_dataCodewords_pad (by omega))
  case frame => exact (codeword_assembled hroom i).trans (if_neg (Nat.not_lt_of_le hi))

end Sys2Proof.Machine

/-! # The Reed–Solomon encoder: the powers of alpha, the roots of the code, and what RS_ENCODE writes -/

namespace Sys2Proof.Machine

/-! ### Doubling, and the product as repeated doubling -/

/-- Doubling is the shift of a 9-bit value, reduced by 0x11D when its bit 8 becomes 1 (R142). -/
theorem shift_reduce_eq_gfDouble :
    ∀ v : Byte, v.setWidth 9 <<< 1 ^^^ (if v.getLsbD 7 then 0x11D#9 else 0#9) = (gfDouble v).setWidth 9 := by
  decide

theorem gfDouble_xor (u v : Byte) : gfDouble (u ^^^ v) = gfDouble u ^^^ gfDouble v := by
  have hreduce : ∀ p q : Bool, (if p ^^ q then 0x1D#8 else 0#8) =
      (if p then 0x1D#8 else 0#8) ^^^ (if q then 0x1D#8 else 0#8) := by decide
  simp only [gfDouble, BitVec.shiftLeft_xor_distrib, BitVec.getLsbD_xor, hreduce]
  ac_rfl

theorem gfDouble_eq_zero_iff : ∀ v : Byte, gfDouble v = 0#8 ↔ v = 0#8 := by decide

/-- One round of the product as bytes: the value is doubled, and `a` is added when bit `i` of `b` is 1 (R143). -/
def gfMulStep (a b v : Byte) (i : Nat) : Byte := gfDouble v ^^^ if b.getLsbD i then a else 0#8

theorem gfMulRound_eq_gfMulStep (a b v : Byte) (i : Nat) :
    gfMulRound a b (v.setWidth 9) i = (gfMulStep a b v i).setWidth 9 := by
  have hbit : (v.setWidth 9 <<< 1).getLsbD 8 = v.getLsbD 7 := by simp
  have hdouble := shift_reduce_eq_gfDouble v
  simp only [gfMulRound, gfMulStep, hbit, BitVec.setWidth_xor, ← hdouble]
  cases v.getLsbD 7 <;> cases b.getLsbD i <;> simp

theorem foldl_gfMulRound (a b v : Byte) (l : List Nat) :
    l.foldl (gfMulRound a b) (v.setWidth 9) = (l.foldl (gfMulStep a b) v).setWidth 9 := by
  induction l generalizing v with
  | nil => rfl
  | cons i l ih => rw [List.foldl_cons, gfMulRound_eq_gfMulStep, ih, List.foldl_cons]

/-- The product is Horner's rule over the bits of `b`, from bit 7 down. -/
theorem gfMul_eq_foldl (a b : Byte) : gfMul a b = [7, 6, 5, 4, 3, 2, 1, 0].foldl (gfMulStep a b) 0#8 := by
  have hfold := foldl_gfMulRound a b 0#8 [7, 6, 5, 4, 3, 2, 1, 0]
  rw [gfMul, show (0#9) = (0#8).setWidth 9 from rfl, hfold]
  simp

theorem gfMulStep_gfDouble (a b v : Byte) (i : Nat) :
    gfMulStep (gfDouble a) b (gfDouble v) i = gfDouble (gfMulStep a b v i) := by
  unfold gfMulStep
  rw [gfDouble_xor]
  split <;> rfl

theorem foldl_gfMulStep_gfDouble (a b v : Byte) (l : List Nat) :
    l.foldl (gfMulStep (gfDouble a) b) (gfDouble v) = gfDouble (l.foldl (gfMulStep a b) v) := by
  induction l generalizing v with
  | nil => rfl
  | cons i l ih => rw [List.foldl_cons, gfMulStep_gfDouble, ih, List.foldl_cons]

theorem gfMul_gfDouble_left (a b : Byte) : gfMul (gfDouble a) b = gfDouble (gfMul a b) := by
  rw [gfMul_eq_foldl, gfMul_eq_foldl, ← foldl_gfMulStep_gfDouble, (gfDouble_eq_zero_iff 0#8).mpr rfl]

theorem gfMul_one_left : ∀ b : Byte, gfMul 0x01#8 b = b := by decide

/-! ### The powers of alpha -/

theorem gfPow_eq_iterate (i : Nat) : gfPow i = gfDouble^[i] 0x01#8 := by
  induction i with
  | zero => rfl
  | succ i ih => rw [gfPow, ih, Function.iterate_succ_apply']

theorem gfMul_gfPow (i j : Nat) : gfMul (gfPow i) (gfPow j) = gfPow (i + j) := by
  induction i with
  | zero => rw [Nat.zero_add, gfPow, gfMul_one_left]
  | succ i ih => rw [Nat.succ_add, gfPow, gfMul_gfDouble_left, ih, gfPow]

theorem gfPow_ne_zero (i : Nat) : gfPow i ≠ 0#8 := by
  induction i with
  | zero => decide
  | succ i ih => exact fun h => ih ((gfDouble_eq_zero_iff _).mp h)

/-- The powers of `α` have period 255 and no shorter one: 1 does not come back after any proper divisor of 255 (R142). -/
theorem minimalPeriod_gfDouble : Function.minimalPeriod gfDouble 0x01#8 = 255 := by
  have hperiod : Function.IsPeriodicPt gfDouble 255 0x01#8 := by
    show gfDouble^[255] 0x01#8 = 0x01#8
    decide +kernel
  have hproper : ∀ k ∈ Nat.properDivisors 255, gfDouble^[k] 0x01#8 ≠ 0x01#8 := by decide +kernel
  by_contra hne
  have hdvd := hperiod.minimalPeriod_dvd
  have hlt := lt_of_le_of_ne (Nat.le_of_dvd (by decide) hdvd) hne
  exact hproper _ (Nat.mem_properDivisors.mpr ⟨hdvd, hlt⟩) Function.iterate_minimalPeriod

theorem gfExp_eq_gfPow (i : Nat) : gfExp i = gfPow i := by
  have hmod := Function.iterate_mod_minimalPeriod_eq (f := gfDouble) (x := 0x01#8) (n := i)
  rwa [minimalPeriod_gfDouble, ← gfPow_eq_iterate, ← gfPow_eq_iterate] at hmod

theorem gfPow_injOn : Set.InjOn gfPow (Set.Iio 255) := by
  have hinj := Function.iterate_injOn_Iio_minimalPeriod (f := gfDouble) (x := 0x01#8)
  rw [minimalPeriod_gfDouble] at hinj
  exact hinj.congr fun i _ => (gfPow_eq_iterate i).symm

/-- The 255 powers of `α` are all the 255 nonzero bytes (R142). -/
theorem exists_gfPow {v : Byte} (h : v ≠ 0#8) : ∃ i, i < 255 ∧ gfPow i = v := by
  have hmaps : Set.MapsTo (fun i => (gfPow i).toNat) (Finset.range 255) (Finset.Ico 1 256) := by
    intro i _
    have hpos : (gfPow i).toNat ≠ 0 := fun h0 => gfPow_ne_zero i (BitVec.eq_of_toNat_eq h0)
    have hlt := (gfPow i).isLt
    simp only [Finset.coe_Ico, Set.mem_Ico]
    omega
  have hinj : Set.InjOn (fun i => (gfPow i).toNat) (Finset.range 255) := by
    rw [Finset.coe_range]
    exact BitVec.toNat_injective.comp_injOn gfPow_injOn
  have hmem : v.toNat ∈ (Finset.Ico 1 256 : Finset Nat) := by
    have hpos : v.toNat ≠ 0 := fun h0 => h (BitVec.eq_of_toNat_eq h0)
    have hlt := v.isLt
    rw [Finset.mem_Ico]
    omega
  obtain ⟨i, hi, hv⟩ := Finset.surjOn_of_injOn_of_card_le _ hmaps hinj (by simp) hmem
  exact ⟨i, by simpa using hi, BitVec.eq_of_toNat_eq hv⟩

/-! ### LOG -/

theorem gfLog_eq_some_iff {v : Byte} {i : Nat} : gfLog v = some i ↔ i < 255 ∧ gfPow i = v := by
  simp only [gfLog, find?_range_eq_some, gfExp_eq_gfPow, beq_iff_eq, beq_eq_false_iff_ne]
  refine ⟨fun ⟨hi, hv, _⟩ => ⟨hi, hv⟩, fun ⟨hi, hv⟩ => ⟨hi, hv, fun j hj hj' => ?_⟩⟩
  exact Nat.ne_of_lt hj (gfPow_injOn (Nat.lt_trans hj hi) hi (hj'.trans hv.symm))

theorem gfLog_gfPow {i : Nat} (h : i < 255) : gfLog (gfPow i) = some i := gfLog_eq_some_iff.mpr ⟨h, rfl⟩

/-- LOG of 0 has no value: no power of `α` is 0 (R147). -/
theorem gfLog_zero : gfLog 0#8 = none := by
  rw [Option.eq_none_iff_forall_ne_some]
  exact fun i h => gfPow_ne_zero i (gfLog_eq_some_iff.mp h).2

/-- Settles O21: the powers of `α` have minimal period 255, so the first 255 are distinct and are all nonzero bytes. -/
theorem expAndLogAreThePowersOfAlpha : Obligations.ExpAndLogAreThePowersOfAlpha := by
  refine ⟨rfl, fun i _ => ?recurrence, fun i => ?period, fun v hv => ?log⟩
  case recurrence => rw [shift_reduce_eq_gfDouble, gfExp_eq_gfPow, gfExp_eq_gfPow, gfPow]; simp
  case period => simp only [gfExp, Nat.mod_mod]
  case log =>
    obtain ⟨i, hi, rfl⟩ := exists_gfPow hv
    simp only [gfExp_eq_gfPow]
    exact ⟨i, hi, gfLog_gfPow hi, rfl, fun j hj hji => gfPow_injOn hj hi hji⟩

theorem gfMulByLog_gfPow {i j : Nat} (hi : i < 255) (hj : j < 255) : gfMulByLog (gfPow i) (gfPow j) = gfPow (i + j) := by
  simp only [gfMulByLog, gfLog_gfPow hi, gfLog_gfPow hj, gfExp_eq_gfPow]

theorem gfMulByLog_of_eq_zero {a b : Byte} (h : a = 0#8 ∨ b = 0#8) : gfMulByLog a b = 0#8 := by
  unfold gfMulByLog
  rcases h with rfl | rfl <;> simp [gfLog_zero]

theorem gfMul_of_eq_zero {a b : Byte} (h : a = 0#8 ∨ b = 0#8) : gfMul a b = 0#8 := by
  rcases h with rfl | rfl
  · exact gfMul_zero_left b
  · exact gfMul_zero_right a

/-- Settles O20: nonzero bytes are powers of `α`, whose product is the power of the sum. -/
theorem logTablesGiveTheProduct : Obligations.LogTablesGiveTheProduct := by
  intro a b
  by_cases hzero : a = 0#8 ∨ b = 0#8
  · refine ⟨gfMul_of_eq_zero, fun ha hb => absurd hzero (not_or.mpr ⟨ha, hb⟩), ?_⟩
    rw [gfMul_of_eq_zero hzero, gfMulByLog_of_eq_zero hzero]
  · obtain ⟨ha, hb⟩ := not_or.mp hzero
    obtain ⟨i, hi, rfl⟩ := exists_gfPow ha
    obtain ⟨j, hj, rfl⟩ := exists_gfPow hb
    refine ⟨gfMul_of_eq_zero, fun _ _ => ⟨i, j, gfLog_gfPow hi, gfLog_gfPow hj, ?_⟩, ?_⟩
    · rw [gfMul_gfPow, gfExp_eq_gfPow]
    · rw [gfMul_gfPow, gfMulByLog_gfPow hi hj]

/-! ### The generator polynomials -/

/-- A polynomial whose coefficients are these powers of `α` has these exponents. -/
theorem map_gfLog_map_gfPow {es : List Nat} (h : ∀ e ∈ es, e < 255) : (es.map gfPow).map gfLog = es.map some := by
  rw [List.map_map]
  exact List.map_congr_left fun e he => gfLog_gfPow (h e he)


/-- The three generators, as the powers of `α` of their coefficients (R149). -/
theorem generator_eq_map_gfPow :
    generator 7 = [0, 87, 229, 146, 149, 238, 102, 21].map gfPow ∧
      generator 10 = [0, 251, 67, 46, 61, 118, 70, 64, 94, 32, 45].map gfPow ∧
      generator 15 = [0, 8, 183, 61, 91, 202, 37, 51, 58, 58, 237, 140, 124, 5, 99, 105].map gfPow := by
  decide +kernel

/-- Settles O22: the coefficients by evaluation, the exponents as the logarithms of powers of `α`. -/
theorem generatorsAreTheListedOnes : Obligations.GeneratorsAreTheListedOnes := by
  obtain ⟨h7, h10, h15⟩ := generator_eq_map_gfPow
  refine ⟨by decide +kernel, by decide +kernel, by decide +kernel, ?_, ?_, ?_⟩
  · rw [h7, map_gfLog_map_gfPow (by decide)]
  · rw [h10, map_gfLog_map_gfPow (by decide)]
  · rw [h15, map_gfLog_map_gfPow (by decide)]

/-- Two factors of a product may be exchanged (R140, R144). -/
theorem gfMul_right_comm (a b c : Byte) : gfMul (gfMul a b) c = gfMul (gfMul a c) b := by
  by_cases ha : a = 0#8
  · simp [ha]
  by_cases hb : b = 0#8
  · simp [hb]
  by_cases hc : c = 0#8
  · simp [hc]
  obtain ⟨i, -, rfl⟩ := exists_gfPow ha
  obtain ⟨j, -, rfl⟩ := exists_gfPow hb
  obtain ⟨k, -, rfl⟩ := exists_gfPow hc
  simp only [gfMul_gfPow, Nat.add_right_comm]

/-! ### Values of polynomials -/

/-- One step of Horner's rule at `x`, of which `polyValue` is the fold from 0 (R151). -/
def hornerStep (x acc b : Byte) : Byte := gfMul acc x ^^^ b

theorem polyValue_append (p q : List Byte) (x : Byte) : polyValue (p ++ q) x = q.foldl (hornerStep x) (polyValue p x) :=
  List.foldl_append

theorem polyValue_concat (p : List Byte) (b x : Byte) : polyValue (p ++ [b]) x = gfMul (polyValue p x) x ^^^ b :=
  polyValue_append p [b] x

theorem polyValue_zero_cons (p : List Byte) (x : Byte) : polyValue (0#8 :: p) x = polyValue p x := by simp [polyValue]

theorem foldl_hornerStep_xor (x : Byte) {p q : List Byte} (h : p.length = q.length) (u v : Byte) :
    (List.zipWith (· ^^^ ·) p q).foldl (hornerStep x) (u ^^^ v) =
      p.foldl (hornerStep x) u ^^^ q.foldl (hornerStep x) v := by
  induction p generalizing q u v with
  | nil => cases q <;> simp_all
  | cons a p ih =>
    cases q with
    | nil => simp at h
    | cons b q =>
      have hstep : hornerStep x (u ^^^ v) (a ^^^ b) = hornerStep x u a ^^^ hornerStep x v b := by
        simp only [hornerStep, gfMul_xor_left]
        ac_rfl
      rw [List.zipWith_cons_cons, List.foldl_cons, hstep, ih (Nat.succ.inj h), List.foldl_cons, List.foldl_cons]

theorem polyValue_zipWith_xor {p q : List Byte} (h : p.length = q.length) (x : Byte) :
    polyValue (List.zipWith (· ^^^ ·) p q) x = polyValue p x ^^^ polyValue q x :=
  foldl_hornerStep_xor x h 0#8 0#8

/-- Exclusive-or onto the low coefficients adds the value of what is added. -/
theorem polyValue_append_zipWith_xor (d : List Byte) {p q : List Byte} (h : p.length = q.length) (x : Byte) :
    polyValue (d ++ List.zipWith (· ^^^ ·) p q) x = polyValue (d ++ p) x ^^^ polyValue q x := by
  rw [polyValue_append, polyValue_append]
  have hsplit := foldl_hornerStep_xor x h (polyValue d x) 0#8
  rwa [BitVec.xor_zero] at hsplit

@[simp] theorem polyValue_replicate_zero (k : Nat) (x : Byte) : polyValue (List.replicate k 0#8) x = 0#8 := by
  induction k with
  | zero => rfl
  | succ k ih => rw [List.replicate_succ', polyValue_concat, ih, gfMul_zero_left, BitVec.xor_zero]

theorem polyValue_map_gfMul (p : List Byte) (c x : Byte) : polyValue (p.map (gfMul · c)) x = gfMul (polyValue p x) c := by
  induction p using List.reverseRecOn with
  | nil => exact (gfMul_zero_left c).symm
  | append_singleton p b ih =>
    rw [List.map_append, List.map_singleton, polyValue_concat, ih, polyValue_concat, gfMul_xor_left, gfMul_right_comm]

/-- The value of a polynomial times `(x − root)` is its value times `x − root` (R148). -/
theorem polyValue_mulRoot (p : List Byte) (root x : Byte) :
    polyValue (mulRoot p root) x = gfMul (polyValue p x) (x ^^^ root) := by
  rw [mulRoot, polyValue_zipWith_xor (by simp), polyValue_concat, polyValue_zero_cons, polyValue_map_gfMul,
    BitVec.xor_zero, gfMul_xor_right]

theorem generator_succ (n : Nat) : generator (n + 1) = mulRoot (generator n) (gfExp n) := by
  simp [generator, List.range_succ]

/-- `α^i` is a root of `GEN[n]` for every `i < n` (R148). -/
theorem polyValue_generator {n i : Nat} (h : i < n) : polyValue (generator n) (gfExp i) = 0#8 := by
  induction n with
  | zero => exact absurd h (Nat.not_lt_zero i)
  | succ n ih =>
    rw [generator_succ, polyValue_mulRoot]
    rcases Nat.lt_succ_iff_lt_or_eq.mp h with hlt | rfl
    · rw [ih hlt, gfMul_zero_left]
    · rw [BitVec.xor_self, gfMul_zero_right]

/-- `GEN[n]` is monic (R148). -/
theorem exists_generator_eq_cons (n : Nat) : ∃ low, generator n = 0x01#8 :: low := by
  induction n with
  | zero => exact ⟨[], rfl⟩
  | succ n ih =>
    obtain ⟨low, hlow⟩ := ih
    rw [generator_succ, hlow]
    exact ⟨_, rfl⟩

/-! ### The division register -/

/-- A step of the register by a monic divisor: the data codeword before the new register is the old register shifted, plus the multiple
of the divisor that has the codeword as its leading coefficient (R150). -/
theorem cons_rsStep (low r : List Byte) (b : Byte) (h : 0 < r.length) :
    b :: rsStep (0x01#8 :: low) r b =
      List.zipWith (· ^^^ ·) (r ++ [0#8]) ((0x01#8 :: low).map (gfMul · (b ^^^ r.headD 0#8))) := by
  obtain ⟨top, r, rfl⟩ := List.exists_cons_of_length_pos h
  have htop : top ^^^ (b ^^^ top) = b := by rw [BitVec.xor_comm b, ← BitVec.xor_assoc, BitVec.xor_self, BitVec.zero_xor]
  simp [rsStep, gfMul_one_left, htop, List.zipWith_map_right]

/-- At a root of a monic divisor, a step of the register keeps the value 0 of the data before the register (R150, R151). -/
theorem polyValue_append_cons_rsStep {d low r : List Byte} {x : Byte} (b : Byte) (hlen : r.length = low.length)
    (hpos : 0 < r.length) (hroot : polyValue (0x01#8 :: low) x = 0#8) (hr : polyValue (d ++ r) x = 0#8) :
    polyValue (d ++ b :: rsStep (0x01#8 :: low) r b) x = 0#8 := by
  rw [cons_rsStep low r b hpos, polyValue_append_zipWith_xor d (by simp [hlen]), ← List.append_assoc, polyValue_concat, hr,
    polyValue_map_gfMul, hroot]
  simp

theorem rsRemainder_concat (d : List Byte) (b : Byte) (n : Nat) :
    rsRemainder (d ++ [b]) n = rsStep (generator n) (rsRemainder d n) b := by
  simp [rsRemainder]

/-- At each root of `GEN[n]`, data followed by its `n` correction codewords has the value 0, for every `n` (R151). -/
theorem polyValue_append_rsRemainder (d : List Byte) {n i : Nat} (h : i < n) :
    polyValue (d ++ rsRemainder d n) (gfExp i) = 0#8 := by
  have hroot := polyValue_generator h
  have hlen := length_generator n
  obtain ⟨low, hgen⟩ := exists_generator_eq_cons n
  rw [hgen] at hroot hlen
  induction d using List.reverseRecOn with
  | nil => exact polyValue_replicate_zero n (gfExp i)
  | append_singleton d b ih =>
    rw [rsRemainder_concat, hgen, List.append_assoc, List.singleton_append]
    have hreg := length_rsRemainder d n
    exact polyValue_append_cons_rsStep b (hreg.trans (Nat.succ.inj hlen).symm) (by omega) hroot ih

/-- Settles O18: it holds for every correction count, since every step of the division keeps the value 0. -/
theorem blockVanishesAtTheGeneratorsRoots : Obligations.BlockVanishesAtTheGeneratorsRoots :=
  fun d _ _ _ hi => polyValue_append_rsRemainder d hi

/-! ### Linearity of the remainder -/

theorem zipWith_xor_self (p : List Byte) : List.zipWith (· ^^^ ·) p p = List.replicate p.length 0#8 := by
  simp [List.zipWith_self]

/-- An entry of the register plus the multiple by `f` of a coefficient of the divisor (R150). -/
def addMultiple (f a c : Byte) : Byte := a ^^^ gfMul c f

theorem rsStep_eq_zipWith (g r : List Byte) (b : Byte) :
    rsStep g r b = List.zipWith (addMultiple (b ^^^ r.headD 0#8)) (r.tail ++ [0#8]) g.tail := rfl

theorem addMultiple_xor (f f' a a' c : Byte) :
    addMultiple (f ^^^ f') (a ^^^ a') c = addMultiple f a c ^^^ addMultiple f' a' c := by
  simp only [addMultiple, gfMul_xor_right]
  ac_rfl

theorem zipWith_addMultiple_xor (f f' : Byte) (p q c : List Byte) :
    List.zipWith (addMultiple (f ^^^ f')) (List.zipWith (· ^^^ ·) p q) c =
      List.zipWith (· ^^^ ·) (List.zipWith (addMultiple f) p c) (List.zipWith (addMultiple f') q c) := by
  induction p generalizing q c with
  | nil => rfl
  | cons a p ih =>
    cases q with
    | nil => simp
    | cons b q =>
      cases c with
      | nil => rfl
      | cons k c => simp only [List.zipWith_cons_cons, ih, addMultiple_xor]

theorem headD_zipWith_xor {r r' : List Byte} (h : r.length = r'.length) :
    (List.zipWith (· ^^^ ·) r r').headD 0#8 = r.headD 0#8 ^^^ r'.headD 0#8 :=
  match r, r', h with
  | [], [], _ => rfl
  | _ :: _, _ :: _, _ => rfl

theorem rsStep_xor (g : List Byte) {r r' : List Byte} (h : r.length = r'.length) (b b' : Byte) :
    rsStep g (List.zipWith (· ^^^ ·) r r') (b ^^^ b') = List.zipWith (· ^^^ ·) (rsStep g r b) (rsStep g r' b') := by
  have hfactor : (b ^^^ b') ^^^ (r.headD 0#8 ^^^ r'.headD 0#8) = (b ^^^ r.headD 0#8) ^^^ (b' ^^^ r'.headD 0#8) := by ac_rfl
  have hshift : (List.zipWith (· ^^^ ·) r r').tail ++ [0#8] = List.zipWith (· ^^^ ·) (r.tail ++ [0#8]) (r'.tail ++ [0#8]) := by
    rw [List.zipWith_append (by simp [h]), List.tail_zipWith]
    rfl
  simp only [rsStep_eq_zipWith, headD_zipWith_xor h, hfactor, hshift, zipWith_addMultiple_xor]

theorem foldl_rsStep_xor {g d d' r r' : List Byte} (hd : d.length = d'.length) (hr : r.length = r'.length)
    (hg : r.length + 1 = g.length) :
    (List.zipWith (· ^^^ ·) d d').foldl (rsStep g) (List.zipWith (· ^^^ ·) r r') =
      List.zipWith (· ^^^ ·) (d.foldl (rsStep g) r) (d'.foldl (rsStep g) r') := by
  induction d generalizing d' r r' with
  | nil => cases d' <;> simp_all
  | cons b d ih =>
    cases d' with
    | nil => simp at hd
    | cons b' d' =>
      have hlen := length_rsStep b hg
      have hlen' := length_rsStep b' (hr ▸ hg)
      rw [List.zipWith_cons_cons, List.foldl_cons, rsStep_xor g hr, ih (Nat.succ.inj hd) (by omega) (by omega)]
      rfl

theorem rsRemainder_zipWith_xor {d e : List Byte} (h : d.length = e.length) (n : Nat) :
    rsRemainder (List.zipWith (· ^^^ ·) d e) n = List.zipWith (· ^^^ ·) (rsRemainder d n) (rsRemainder e n) := by
  have hfold := foldl_rsStep_xor (g := generator n) h (r := List.replicate n 0#8) rfl (by simp)
  rwa [zipWith_xor_self, List.length_replicate] at hfold

/-- Settles O19: every step of the division is linear, and zeros are the sum of zeros with themselves. -/
theorem remainderIsLinear : Obligations.RemainderIsLinear := by
  refine ⟨fun d e n h => rsRemainder_zipWith_xor h n, fun k n => ?_⟩
  have hdouble := rsRemainder_zipWith_xor (d := List.replicate k 0#8) rfl n
  simpa only [zipWith_xor_self, List.length_replicate, length_rsRemainder] using hdouble

/-! ### One block -/

theorem interleave_singleton (p : List Byte) : interleave [p] = p := by
  have hentries : ∀ p : List Byte, (List.range p.length).flatMap (fun i => [p].filterMap (·[i]?)) = p := by
    intro p
    induction p with
    | nil => rfl
    | cons b p ih =>
      rw [List.length_cons, List.range_succ_eq_map, List.flatMap_cons, List.flatMap_map]
      exact congrArg (b :: ·) ih
  simpa [interleave] using hentries p

/-- Settles O23: the interleave of one list is that list. -/
theorem oneBlockStreamIsDataThenRemainder : Obligations.OneBlockStreamIsDataThenRemainder := by
  intro d n
  rw [blockStream, List.map_singleton, interleave_singleton, interleave_singleton]

/-! ### RS_ENCODE -/

/-- The data and correction codewords of a valid context fit the codeword buffer (R56, R112). -/
theorem Inv.lpData_add_lpEcc_le {s : State} (h : Inv s) (hvalid : s.status.valid = true) :
    s.ctx.lpData.toNat + s.ctx.lpEcc.toNat ≤ 70 := by
  have hver := h.valid hvalid
  have hle := version_le s.ctx
  obtain ⟨-, -, -, hdata, hecc, -⟩ := Context.consistent_of_version h.context hver
  have hfit : ∀ v ∈ [1, 2, 3], (layoutOf v).data + (layoutOf v).ecc ≤ 70 := by decide
  rw [hdata, hecc]
  exact hfit _ (by simp; omega)

/-- Correction codewords written at `D` are `CW[D..D+n-1]` and no other entry is (R155). -/
theorem codeword_writeCodewords_rsRemainder {D n : Nat} (h : D + n ≤ 70) (s : State) (d : List Byte) (i : Nat) :
    (s.writeCodewords D (rsRemainder d n)).codeword i =
      if D ≤ i ∧ i < D + n then (rsRemainder d n)[i - D]? else s.codeword i := by
  rw [codeword_writeCodewords, length_rsRemainder]
  exact if_congr (by omega) rfl rfl

/-- Settles O16: the coder writes `CW[D..D+n-1]`, which lie in the buffer; without a context, or with a codeword unwritten, one of its
two checks faults. -/
theorem rsEncodeWritesTheRemainder : Obligations.RsEncodeWritesTheRemainder := by
  refine ⟨fun s hinv hvalid hwritten => ⟨_, rsEncodeFor_next.mpr ⟨hvalid, hwritten, rfl⟩, rfl, ?_⟩,
    fun s hvalid => requireValid_of_not hvalid, fun s i hvalid hi hnone hbelow => ?unwritten⟩
  case unwritten => exact (requireValid_of_valid hvalid).trans (requireWritten_of_unwritten hi hnone hbelow)
  intro D n
  have hcw := codeword_writeCodewords_rsRemainder (hinv.lpData_add_lpEcc_le hvalid) s (s.codewords D)
  refine ⟨fun j hj => ?remainder, fun i hi => (hcw i).trans (if_neg (by omega))⟩
  case remainder =>
    have hj' := (hcw (D + j)).trans (if_pos (by omega))
    rw [Nat.add_sub_cancel_left] at hj'
    refine ⟨hj', ?_⟩
    rw [hj', List.getElem?_eq_getElem (hj.trans_eq (length_rsRemainder _ _).symm), Option.isSome_some]

end Sys2Proof.Machine

/-! # Placement: the fixed patterns, format information, the zig-zag order, data modules and PLACE -/

namespace Sys2Proof.Machine

theorem mem_versions {v : Nat} (hv : 1 ≤ v) (hv3 : v ≤ 3) : v ∈ [1, 2, 3] := by
  simp only [List.mem_cons, List.not_mem_nil, or_false]
  omega

theorem twentyOne_le_sideOf {v : Nat} (hv : 1 ≤ v) : 21 ≤ sideOf v := by
  unfold sideOf
  omega

/-! ### Where each pattern lies -/

theorem ringOf_le_iff {cx cy x y r : Nat} :
    ringOf cx cy x y ≤ r ↔ (x ≤ cx + r ∧ cx ≤ x + r) ∧ y ≤ cy + r ∧ cy ≤ y + r := by
  unfold ringOf absDiff
  omega

theorem ringOf_offset (x0 y0 r i j : Nat) :
    ringOf (x0 + r) (y0 + r) (x0 + i) (y0 + j) = max (max (i - r) (r - i)) (max (j - r) (r - j)) := by
  unfold ringOf absDiff
  omega

/-- The finder centres are far apart, so a module in or beside one finder measures its ring from that finder's centre (R182, R183). -/
theorem finderRing_eq_of_near {n x y cx cy : Nat} (hn : 21 ≤ n) (hc : (cx, cy) ∈ [(3, 3), (n - 4, 3), (3, n - 4)])
    (h : ringOf cx cy x y ≤ 4) : finderRing n x y = ringOf cx cy x y := by
  simp only [List.mem_cons, List.not_mem_nil, or_false, Prod.mk.injEq] at hc
  unfold finderRing
  obtain ⟨rfl, rfl⟩ | ⟨rfl, rfl⟩ | ⟨rfl, rfl⟩ := hc
  all_goals unfold ringOf absDiff at *; omega

/-- The 7×7 modules from a finder's top-left corner lie in the rings of that finder (R182). -/
theorem finderRing_corner {n x0 y0 i j : Nat} (hn : 21 ≤ n) (hc : (x0, y0) ∈ [(0, 0), (n - 7, 0), (0, n - 7)])
    (hi : i < 7) (hj : j < 7) :
    finderRing n (x0 + i) (y0 + j) = max (max (i - 3) (3 - i)) (max (j - 3) (3 - j)) := by
  rw [← ringOf_offset x0 y0]
  refine finderRing_eq_of_near hn ?_ (by rw [ringOf_offset]; omega)
  simp only [List.mem_cons, List.not_mem_nil, or_false, Prod.mk.injEq] at hc ⊢
  omega

/-- The six separator lines lie in ring 4 of their finder (R183). -/
theorem finderRing_separators {n k : Nat} (hn : 21 ≤ n) (hk : k < 8) :
    finderRing n 7 k = 4 ∧ finderRing n k 7 = 4 ∧ finderRing n (n - 8) k = 4 ∧ finderRing n (n - 8 + k) 7 = 4 ∧
      finderRing n 7 (n - 8 + k) = 4 ∧ finderRing n k (n - 8) = 4 := by
  unfold finderRing ringOf absDiff
  omega

theorem isTiming_iff {n x y : Nat} :
    isTiming n x y = true ↔ (y = 6 ∧ 8 ≤ x ∧ x ≤ n - 9) ∨ (x = 6 ∧ 8 ≤ y ∧ y ≤ n - 9) := by
  simp [isTiming, and_assoc]

theorem isDarkModule_iff {n x y : Nat} : isDarkModule n x y = true ↔ x = 8 ∧ y = n - 8 := by
  simp [isDarkModule]

theorem isAlignment_iff {v x y : Nat} :
    isAlignment v x y = true ↔ 2 ≤ v ∧ (sideOf v - 9 ≤ x ∧ x ≤ sideOf v - 5) ∧ sideOf v - 9 ≤ y ∧ y ≤ sideOf v - 5 := by
  simp only [isAlignment, Bool.and_eq_true, decide_eq_true_eq, ringOf_le_iff, sideOf]
  omega

theorem isSome_formatBit_iff {n x y : Nat} : (formatBit n x y).isSome = true ↔ (x, y) ∈ formatA ∨ (x, y) ∈ formatB n := by
  rw [← List.isSome_idxOf?, ← List.isSome_idxOf?, formatBit]
  cases formatA.idxOf? (x, y) <;> simp

/-- The format copies lie in column 8 and row 8, and step over the timing patterns and the dark module (R187, R194, R195). -/
theorem coords_of_isSome_formatBit {n x y : Nat} (hn : 21 ≤ n) (h : (formatBit n x y).isSome = true) :
    (x = 8 ∧ y ≠ 6 ∧ y ≠ n - 8) ∨ (y = 8 ∧ x ≠ 6) := by
  rcases isSome_formatBit_iff.mp h with hA | hB
  · have hcopy : ∀ p ∈ formatA, (p.1 = 8 ∧ p.2 ≠ 6 ∧ p.2 ≤ 8) ∨ (p.2 = 8 ∧ p.1 ≠ 6) := by decide
    have := hcopy _ hA
    omega
  · simp only [formatB, List.mem_map, List.mem_range] at hB
    obtain ⟨i, hi, hpos⟩ := hB
    split at hpos <;> cases hpos <;> omega

/-! ### No two patterns overlap -/

/-- The fixed patterns and the format information, as `reserved` tests them, at one module (R182 to R187). -/
def patternsAt (v x y : Nat) : List Bool :=
  let n := sideOf v
  [isFinder n x y, isSeparator n x y, isTiming n x y, isDarkModule n x y, isAlignment v x y, (formatBit n x y).isSome]

theorem reserved_iff {v x y : Nat} : reserved v x y = true ↔ true ∈ patternsAt v x y := by
  simp [reserved, patternsAt, or_assoc]

/-- Every pattern but the finders and their separators stays clear of both (R184 to R187). -/
theorem four_lt_finderRing {v x y : Nat} (hv : 1 ≤ v)
    (h : isTiming (sideOf v) x y = true ∨ isDarkModule (sideOf v) x y = true ∨ isAlignment v x y = true ∨
      (formatBit (sideOf v) x y).isSome = true) : 4 < finderRing (sideOf v) x y := by
  have hn := twentyOne_le_sideOf hv
  have hplace : (y = 6 ∧ 8 ≤ x ∧ x ≤ sideOf v - 9) ∨ (x = 6 ∧ 8 ≤ y ∧ y ≤ sideOf v - 9) ∨ x = 8 ∨ y = 8 ∨
      (16 ≤ x ∧ 16 ≤ y) := by
    rcases h with h | h | h | h
    · have := isTiming_iff.mp h; omega
    · have := isDarkModule_iff.mp h; omega
    · have := isAlignment_iff.mp h; unfold sideOf at *; omega
    · have := coords_of_isSome_formatBit hn h; omega
  unfold finderRing ringOf absDiff
  omega

theorem not_finder_of_four_lt {n x y : Nat} (h : 4 < finderRing n x y) : isFinder n x y = false ∧ isSeparator n x y = false := by
  simp only [isFinder, isSeparator, decide_eq_false_iff_not, beq_eq_false_iff_ne]
  omega

/-- The place in `patternsAt` of the one pattern that can hold a module, read off its ring and its coordinates (R182 to R187). -/
def patternIndex (n x y : Nat) : Nat :=
  if finderRing n x y ≤ 3 then 0
  else if finderRing n x y = 4 then 1
  else if x = 6 ∨ y = 6 then 2
  else if x = 8 ∧ y = n - 8 then 3
  else if x = 8 ∨ y = 8 then 5
  else 4

theorem patternIndex_eq {v x y i : Nat} (hv : 1 ≤ v) (h : (patternsAt v x y)[i]? = some true) :
    patternIndex (sideOf v) x y = i := by
  have hn := twentyOne_le_sideOf hv
  have hring := four_lt_finderRing (x := x) (y := y) hv
  unfold patternIndex
  match i, h with
  | 0, h =>
    have : finderRing (sideOf v) x y ≤ 3 := by simpa [patternsAt, isFinder] using h
    exact if_pos this
  | 1, h =>
    have : finderRing (sideOf v) x y = 4 := by simpa [patternsAt, isSeparator] using h
    split <;> omega
  | 2, h =>
    have htiming : isTiming (sideOf v) x y = true := by simpa [patternsAt] using h
    have := hring (.inl htiming)
    have := isTiming_iff.mp htiming
    split_ifs <;> omega
  | 3, h =>
    have hdark : isDarkModule (sideOf v) x y = true := by simpa [patternsAt] using h
    have := hring (.inr (.inl hdark))
    have := isDarkModule_iff.mp hdark
    split_ifs <;> omega
  | 4, h =>
    have halign : isAlignment v x y = true := by simpa [patternsAt] using h
    have := hring (.inr (.inr (.inl halign)))
    have := isAlignment_iff.mp halign
    unfold sideOf at *
    split_ifs <;> omega
  | 5, h =>
    have hformat : (formatBit (sideOf v) x y).isSome = true := by simpa [patternsAt] using h
    have := hring (.inr (.inr (.inr hformat)))
    have := coords_of_isSome_formatBit hn hformat
    split_ifs <;> omega
  | _ + 6, h => simp [patternsAt] at h

/-- Two patterns at one module would both have its `patternIndex` (R189). -/
theorem countP_patternsAt_le_one {v : Nat} (hv : 1 ≤ v) (x y : Nat) : (patternsAt v x y).countP id ≤ 1 := by
  have hcount : (patternsAt v x y).countP id = (patternsAt v x y).count true := List.countP_congr (by simp)
  have hdup : ¬ (patternsAt v x y).Duplicate true := by
    rw [List.duplicate_iff_exists_distinct_get]
    rintro ⟨i, j, hij, hi, hj⟩
    have hindex : ∀ k : Fin (patternsAt v x y).length, true = (patternsAt v x y).get k → patternIndex (sideOf v) x y = k :=
      fun k hk => patternIndex_eq hv (List.getElem?_eq_some_iff.mpr ⟨k.isLt, hk.symm⟩)
    have := hindex i hi
    have := hindex j hj
    omega
  rw [List.duplicate_iff_two_le_count] at hdup
  omega

/-! ### Counts -/

/-- How many modules of a symbol of side `n` satisfy `p` (R189). -/
def moduleCount (n : Nat) (p : Nat → Nat → Bool) : Nat := ((List.range n).map fun y => (List.range n).countP fun x => p x y).sum

/-- The counts of R189 for version `v`, of which four vary with the version. -/
def HasPatternCounts (v timing align res data : Nat) : Prop :=
  let n := sideOf v
  moduleCount n (fun x y => isFinder n x y || isSeparator n x y) = 192 ∧
    moduleCount n (fun x y => isTiming n x y) = timing ∧
    moduleCount n (fun x y => (formatBit n x y).isSome || isDarkModule n x y) = 31 ∧
    moduleCount n (fun x y => isAlignment v x y) = align ∧
    moduleCount n (fun x y => reserved v x y) = res ∧
    moduleCount n (fun x y => !reserved v x y) = data

theorem hasPatternCounts :
    HasPatternCounts 1 10 0 233 208 ∧ HasPatternCounts 2 18 25 266 359 ∧ HasPatternCounts 3 26 25 274 567 := by
  unfold HasPatternCounts
  decide +kernel

/-- Settles O26: the counts by evaluation of the three grids; that no two patterns overlap holds in every version. -/
theorem reservedAndDataModuleCounts : Obligations.ReservedAndDataModuleCounts := by
  intro v timing align res data total rem hrow
  have hfacts : 1 ≤ v ∧ HasPatternCounts v timing align res data ∧ (layoutOf v).total = total ∧ data = 8 * total + rem := by
    simp only [List.mem_cons, List.not_mem_nil, or_false, Prod.mk.injEq] at hrow
    obtain ⟨hcounts1, hcounts2, hcounts3⟩ := hasPatternCounts
    obtain ⟨rfl, rfl, rfl, rfl, rfl, rfl, rfl⟩ | ⟨rfl, rfl, rfl, rfl, rfl, rfl, rfl⟩ | ⟨rfl, rfl, rfl, rfl, rfl, rfl, rfl⟩ := hrow
    · exact ⟨by decide, hcounts1, rfl, rfl⟩
    · exact ⟨by decide, hcounts2, rfl, rfl⟩
    · exact ⟨by decide, hcounts3, rfl, rfl⟩
  obtain ⟨hv, ⟨hfinder, htiming, hformat, halign, hres, hdata⟩, htotal, hrem⟩ := hfacts
  exact ⟨hfinder, htiming, hformat, halign, hres, hdata, htotal, hrem, fun x y _ _ => countP_patternsAt_le_one hv x y⟩

/-! ### Format information -/

/-- Settles O25, over the eight masks. -/
theorem formatWordIsACodewordOfTheShortCode : Obligations.FormatWordIsACodewordOfTheShortCode := by
  unfold Obligations.FormatWordIsACodewordOfTheShortCode
  decide

theorem mask_of_fmtWord (m : BitVec 3) : (fmtWord m ^^^ 0x5412#15).extractLsb' 10 3 = m := by
  revert m
  decide

theorem fmtWord_injective : Function.Injective fmtWord := fun m m' h => by
  rw [← mask_of_fmtWord m, h, mask_of_fmtWord]

/-- Settles O24: the word computed for each mask is the table's, and the mask is read back from it. -/
theorem formatWordWritesTheTableWord : Obligations.FormatWordWritesTheTableWord := by
  have htable : ∀ m : BitVec 3, fmtWord m =
      [0x77C4#15, 0x72F3#15, 0x7DAA#15, 0x789D#15, 0x662F#15, 0x6318#15, 0x6C41#15, 0x6976#15].getD m.toNat 0#15 := by decide
  refine ⟨fun m s => ?_, fun _ _ h => fmtWord_injective h⟩
  rw [← htable]
  rfl

/-- Settles O30: no fixed pattern reaches a format copy, so its modules hold the format word in every complete grid. -/
theorem formatCopiesHoldTheMasksWord : Obligations.FormatCopiesHoldTheMasksWord := by
  intro v hv hv3 S m
  have hcopies := holdsFormatBit_copies v (mem_versions hv hv3)
  have hA : ∀ i x y, formatA[i]? = some (x, y) → placeGrid v S m x y = (fmtWord m).getLsbD i := fun i x y hi =>
    placeGrid_format hv3 S m (hcopies ((x, y), i) (List.mem_append_left _ (List.mk_mem_zipIdx_iff_getElem?.mpr hi)))
  have hB : ∀ i x y, (formatB (sideOf v))[i]? = some (x, y) → placeGrid v S m x y = (fmtWord m).getLsbD i := fun i x y hi =>
    placeGrid_format hv3 S m (hcopies ((x, y), i) (List.mem_append_right _ (List.mk_mem_zipIdx_iff_getElem?.mpr hi)))
  refine ⟨hA, fun i hi => hB i _ _ ?lowBits, fun i hi hi' => hB i _ _ ?highBits, mask_of_fmtWord m⟩
  case lowBits => rw [getElem?_formatB (by omega), if_pos hi]; rfl
  case highBits => rw [getElem?_formatB hi', if_neg (by omega)]; rfl

/-! ### The value of each fixed pattern -/

theorem functionModule_of_isFinder {v x y : Nat} (m : BitVec 3) (h : isFinder (sideOf v) x y = true) :
    functionModule v m x y = (finderRing (sideOf v) x y != 2) := by
  simp [functionModule, h]

theorem functionModule_of_isSeparator {v x y : Nat} (m : BitVec 3) (h : isSeparator (sideOf v) x y = true) :
    functionModule v m x y = false := by
  have hring : finderRing (sideOf v) x y = 4 := beq_iff_eq.mp h
  simp [functionModule, isFinder, h, hring]

theorem functionModule_of_isTiming {v x y : Nat} (hv : 1 ≤ v) (m : BitVec 3) (h : isTiming (sideOf v) x y = true) :
    functionModule v m x y = if y = 6 then x % 2 == 0 else y % 2 == 0 := by
  obtain ⟨hfinder, hsep⟩ := not_finder_of_four_lt (four_lt_finderRing hv (.inl h))
  simp [functionModule, hfinder, hsep, h]

theorem functionModule_of_isDarkModule {v x y : Nat} (hv : 1 ≤ v) (m : BitVec 3) (h : isDarkModule (sideOf v) x y = true) :
    functionModule v m x y = true := by
  obtain ⟨hfinder, hsep⟩ := not_finder_of_four_lt (four_lt_finderRing hv (.inr (.inl h)))
  have htiming : isTiming (sideOf v) x y = false := by
    rw [Bool.eq_false_iff, Ne, isTiming_iff]
    have := isDarkModule_iff.mp h
    have := twentyOne_le_sideOf hv
    omega
  simp [functionModule, hfinder, hsep, htiming, h]

theorem functionModule_of_isAlignment {v x y : Nat} (hv : 1 ≤ v) (m : BitVec 3) (h : isAlignment v x y = true) :
    functionModule v m x y = (ringOf (sideOf v - 7) (sideOf v - 7) x y != 1) := by
  obtain ⟨hfinder, hsep⟩ := not_finder_of_four_lt (four_lt_finderRing hv (.inr (.inr (.inl h))))
  have := isAlignment_iff.mp h
  have := twentyOne_le_sideOf hv
  have htiming : isTiming (sideOf v) x y = false := by
    rw [Bool.eq_false_iff, Ne, isTiming_iff]
    omega
  have hdark : isDarkModule (sideOf v) x y = false := by
    rw [Bool.eq_false_iff, Ne, isDarkModule_iff]
    omega
  simp [functionModule, hfinder, hsep, htiming, hdark, h]

/-- Settles O29: each module of the rule lies in its pattern, so it is reserved, and that pattern alone gives it its value. -/
theorem functionPatternsAreFixed : Obligations.FunctionPatternsAreFixed := by
  intro v hv hv3 S m n holds
  have hn : 21 ≤ n := twentyOne_le_sideOf hv
  have hside : sideOf v = n := rfl
  have hholds : ∀ {x y dark}, x < n → y < n → true ∈ patternsAt v x y → functionModule v m x y = dark → holds x y dark :=
    fun hx hy hmem hval =>
      have hres := reserved_iff.mpr hmem
      ⟨hres, (placeGrid_reserved S m hv3 hx hy hres).trans hval⟩
  have hseparator : ∀ {x y}, x < n → y < n → finderRing n x y = 4 → holds x y false := fun {x y} hx hy hring =>
    have hsep : isSeparator n x y = true := beq_iff_eq.mpr hring
    hholds hx hy (by simp [patternsAt, hside, hsep]) (functionModule_of_isSeparator m hsep)
  refine ⟨fun x0 y0 hc i j hi hj => ?finder, fun k hk => ?separator, fun k hk hk' => ?timing, ?dark,
    fun _ i j hi hj => ?alignment, ?noAlignment⟩
  case finder =>
    have hring := finderRing_corner hn hc hi hj
    have hfinder : isFinder n (x0 + i) (y0 + j) = true := by rw [isFinder, hring, decide_eq_true_eq]; omega
    simp only [List.mem_cons, List.not_mem_nil, or_false, Prod.mk.injEq] at hc
    rw [← hring]
    exact hholds (by omega) (by omega) (by simp [patternsAt, hside, hfinder]) (functionModule_of_isFinder m hfinder)
  case separator =>
    obtain ⟨h1, h2, h3, h4, h5, h6⟩ := finderRing_separators hn hk
    exact ⟨hseparator (by omega) (by omega) h1, hseparator (by omega) (by omega) h2, hseparator (by omega) (by omega) h3,
      hseparator (by omega) (by omega) h4, hseparator (by omega) (by omega) h5, hseparator (by omega) (by omega) h6⟩
  case timing =>
    have hrow : isTiming n k 6 = true := isTiming_iff.mpr (.inl ⟨rfl, hk, hk'⟩)
    have hcol : isTiming n 6 k = true := isTiming_iff.mpr (.inr ⟨rfl, hk, hk'⟩)
    refine ⟨hholds (by omega) (by omega) (by simp [patternsAt, hside, hrow]) (functionModule_of_isTiming hv m hrow),
      hholds (by omega) (by omega) (by simp [patternsAt, hside, hcol]) ?_⟩
    rw [functionModule_of_isTiming hv m hcol, if_neg (by omega)]
  case dark =>
    have hdark : isDarkModule n 8 (n - 8) = true := isDarkModule_iff.mpr ⟨rfl, rfl⟩
    exact hholds (by omega) (by omega) (by simp [patternsAt, hside, hdark]) (functionModule_of_isDarkModule hv m hdark)
  case alignment =>
    have halign : isAlignment v (n - 9 + i) (n - 9 + j) = true := isAlignment_iff.mpr (by rw [hside]; omega)
    have hring := ringOf_offset (n - 9) (n - 9) 2 i j
    rw [show n - 9 + 2 = n - 7 by omega] at hring
    rw [← hring]
    exact hholds (by omega) (by omega) (by simp [patternsAt, hside, halign]) (functionModule_of_isAlignment hv m halign)
  case noAlignment =>
    intro hv1 x y
    simp [isAlignment, hv1]

/-! ### The zig-zag order -/

/-- The right columns of the column pairs of version `v`, in visiting order (R197). -/
def rightColumns (v : Nat) : List Nat := pairColumns (sideOf v) (sideOf v - 1)

/-- The number of the column pair of column `x`, counted from the right edge (R197). -/
def pairNumber (v x : Nat) : Nat := if 6 < x then (4 * v + 16 - x) / 2 else (4 * v + 15 - x) / 2

/-- Module `p` comes before module `q` in the order of the rule: by pair, then by row in the direction of the pair, then the right column
before the left (R197). -/
def ComesBefore (v : Nat) (p q : Nat × Nat) : Prop :=
  pairNumber v p.1 < pairNumber v q.1 ∨
    (pairNumber v p.1 = pairNumber v q.1 ∧
      ((if pairNumber v p.1 % 2 = 0 then q.2 < p.2 else p.2 < q.2) ∨ (p.2 = q.2 ∧ p.1 = q.1 + 1)))

theorem ComesBefore.ne {v : Nat} {p q : Nat × Nat} (h : ComesBefore v p q) : p ≠ q := by
  rintro rfl
  unfold ComesBefore at h
  split at h <;> omega

theorem mem_pairModules {n right x y : Nat} : (x, y) ∈ pairModules n right ↔ (x = right ∨ x = right - 1) ∧ y < n := by
  simp only [pairModules, List.mem_flatMap, List.mem_range, List.mem_cons, List.not_mem_nil, or_false, Prod.mk.injEq]
  constructor
  · rintro ⟨vert, hvert, h⟩
    split at h <;> omega
  · rintro ⟨hx, hy⟩
    cases (right + 1 &&& 2 == 0)
    · exact ⟨y, hy, by simpa using hx⟩
    · exact ⟨n - 1 - y, by omega, by simp; omega⟩

theorem mem_zigzag {v c x y : Nat} (hc : c ∈ rightColumns v) (hx : x = c ∨ x = c - 1) (hy : y < sideOf v)
    (hres : reserved v x y = false) : (x, y) ∈ zigzag v := by
  simp only [zigzag, List.mem_filter, List.mem_flatMap, mem_pairModules, hres, Bool.not_false, and_true]
  exact ⟨c, hc, hx, hy⟩

/-- Every column but the timing column 6 is in a pair (R197). -/
theorem exists_rightColumn : ∀ v ∈ [1, 2, 3], ∀ x < sideOf v, x ≠ 6 → ∃ c ∈ rightColumns v, x = c ∨ x = c - 1 := by
  decide

/-- The pairs are visited in the order of their numbers, and the even ones are the upward ones (R197). -/
theorem rightColumns_numbered :
    ∀ v ∈ [1, 2, 3], (rightColumns v).Pairwise (fun c d => pairNumber v c < pairNumber v d) ∧
      ∀ c ∈ rightColumns v, pairNumber v (c - 1) = pairNumber v c ∧
        (((c + 1) &&& 2 == 0) = true ↔ pairNumber v c % 2 = 0) := by
  decide

theorem of_mem_pairRow {v right y : Nat} {p : Nat × Nat} (hleft : pairNumber v (right - 1) = pairNumber v right)
    (hp : p ∈ [(right, y), (right - 1, y)]) : pairNumber v p.1 = pairNumber v right ∧ p.2 = y := by
  simp only [List.mem_cons, List.not_mem_nil, or_false] at hp
  rcases hp with rfl | rfl
  · exact ⟨rfl, rfl⟩
  · exact ⟨hleft, rfl⟩

/-- One pair is visited in the order of the rule: row by row in its direction, and in a row from right to left (R197). -/
theorem pairwise_pairModules {v right : Nat} (hr : 1 ≤ right) (hleft : pairNumber v (right - 1) = pairNumber v right)
    (hdir : ((right + 1) &&& 2 == 0) = true ↔ pairNumber v right % 2 = 0) (n : Nat) :
    (pairModules n right).Pairwise (ComesBefore v) := by
  unfold pairModules
  refine List.pairwise_flatMap.mpr ⟨fun vert _ => ?row, List.pairwise_lt_range.imp_of_mem fun {i j} _ hj hij p hp q hq => ?rows⟩
  case row => simp [ComesBefore, hleft, Nat.sub_add_cancel hr]
  case rows =>
    rw [List.mem_range] at hj
    obtain ⟨hpair, hrow⟩ := of_mem_pairRow hleft hp
    obtain ⟨hpair', hrow'⟩ := of_mem_pairRow hleft hq
    refine .inr ⟨hpair.trans hpair'.symm, .inl ?_⟩
    rw [hpair, hrow, hrow']
    by_cases hup : pairNumber v right % 2 = 0
    · rw [if_pos hup, if_pos (hdir.mpr hup), if_pos (hdir.mpr hup)]
      omega
    · rwa [if_neg hup, if_neg (mt hdir.mp hup), if_neg (mt hdir.mp hup)]

theorem pairwise_zigzag {v : Nat} (hv : v ∈ [1, 2, 3]) : (zigzag v).Pairwise (ComesBefore v) := by
  obtain ⟨hincr, hpair⟩ := rightColumns_numbered v hv
  refine List.Pairwise.filter _ (List.pairwise_flatMap.mpr
    ⟨fun c hc => ?inPair, hincr.imp_of_mem fun {c d} hc hd hcd p hp q hq => ?acrossPairs⟩)
  case inPair =>
    obtain ⟨hleft, hdir⟩ := hpair c hc
    exact pairwise_pairModules (pairColumns_bound hc).1 hleft hdir _
  case acrossPairs =>
    have hnumber : ∀ {c p}, c ∈ rightColumns v → p ∈ pairModules (sideOf v) c → pairNumber v p.1 = pairNumber v c := by
      intro c p hc hp
      rcases (mem_pairModules (x := p.1) (y := p.2)).mp hp with ⟨hx | hx, -⟩
      · rw [hx]
      · rw [hx, (hpair c hc).1]
    exact .inl (by rwa [hnumber hc hp, hnumber hd hq])

theorem nodup_zigzag {v : Nat} (hv : v ∈ [1, 2, 3]) : (zigzag v).Nodup := (pairwise_zigzag hv).imp ComesBefore.ne

/-- Column 6 is a timing pattern between two finders and their separators (R182 to R184). -/
theorem reserved_column_six {v y : Nat} (hv : 1 ≤ v) (hy : y < sideOf v) : reserved v 6 y = true := by
  rw [reserved_iff]
  by_cases hmid : 8 ≤ y ∧ y ≤ sideOf v - 9
  case pos =>
    have htiming : isTiming (sideOf v) 6 y = true := isTiming_iff.mpr (.inr ⟨rfl, hmid⟩)
    simp [patternsAt, htiming]
  case neg =>
    have hring : finderRing (sideOf v) 6 y ≤ 3 ∨ finderRing (sideOf v) 6 y = 4 := by
      unfold finderRing ringOf absDiff sideOf at *
      omega
    rcases hring with h | h <;> simp [patternsAt, isFinder, isSeparator, h]

/-- Settles O27: pairs, rows and columns each come in the rule's order, which visits nothing twice; every column but column 6,
which is reserved, is in a pair. -/
theorem zigzagVisitsEachDataModuleOnce : Obligations.ZigzagVisitsEachDataModuleOnce := by
  intro v hv hv3
  have hmem := mem_versions hv hv3
  have hsix : ∀ x y, y < sideOf v → reserved v x y = false → x ≠ 6 := by
    rintro x y hy hres rfl
    rw [reserved_column_six hv hy] at hres
    cases hres
  refine ⟨nodup_zigzag hmem, fun x y => ⟨zigzag_mem_bound, fun ⟨hx, hy, hres⟩ => ?visited⟩, fun x y h => ?notSix,
    pairwise_zigzag hmem⟩
  case visited =>
    obtain ⟨c, hc, hxc⟩ := exists_rightColumn v hmem x hx (hsix x y hy hres)
    exact mem_zigzag hc hxc hy hres
  case notSix =>
    obtain ⟨-, hy, hres⟩ := zigzag_mem_bound h
    exact hsix x y hy hres

/-! ### Data modules -/

theorem streamBit_eq_ite (S : List Byte) (i : Nat) :
    streamBit S i = if i < 8 * S.length then (S.getD (i / 8) 0#8).getLsbD (7 - i % 8) else false := by
  by_cases h : i < 8 * S.length <;> simp [streamBit, h]

/-- Module `order[i]` of the complete grid holds stream bit `i` under the mask (R198, R201). -/
theorem placeGrid_zigzag {v i x y : Nat} (hv : v ∈ [1, 2, 3]) (S : List Byte) (m : BitVec 3) (hi : (zigzag v)[i]? = some (x, y)) :
    placeGrid v S m x y = (streamBit S i ^^ maskFn m x y) := by
  have hle : ∀ v ∈ [1, 2, 3], v ≤ 3 ∧ sideOf v ≤ 32 := by decide
  obtain ⟨hv3, hn⟩ := hle v hv
  obtain ⟨hx, hy, hres⟩ := zigzag_mem_bound (List.mem_of_getElem? hi)
  have hinside : ∀ p ∈ zigzag v, p.1 < sideOf v ∧ p.2 < sideOf v := fun p hp => by
    obtain ⟨hpx, hpy, -⟩ := zigzag_mem_bound (x := p.1) (y := p.2) hp
    exact ⟨hpx, hpy⟩
  rw [placeGrid_apply S m hv3 hx hy, hres, if_neg Bool.false_ne_true, gridOf_threadRows_getElem hn hinside (nodup_zigzag hv) hi]

/-- The data modules hold the stream and the remainder bits of the version (R189, R199). -/
theorem length_zigzag :
    ∀ r ∈ [(1, 0), (2, 7), (3, 7)], r.1 ∈ [1, 2, 3] ∧ (zigzag r.1).length = 8 * (layoutOf r.1).total + r.2 := by
  decide +kernel

/-- Settles O28: the zig-zag order visits no module twice, so each data module holds the one bit threaded into it. -/
theorem dataModulesCarryTheMaskedStream : Obligations.DataModulesCarryTheMaskedStream := by
  intro v rem hrow S m hlen
  obtain ⟨hv, hlength⟩ := length_zigzag _ hrow
  refine ⟨hlen ▸ hlength, fun i x y hi => ?_⟩
  rw [placeGrid_zigzag hv S m hi, streamBit_eq_ite]

/-- Settles O31: each row of the table is the branch of `maskFn` for its mask. -/
theorem maskFunctionsAreTheTable : Obligations.MaskFunctionsAreTheTable := by
  intro x y
  simp [maskFn]

/-! ### PLACE -/

/-- Settles O32: PLACE commits the grid of its context, whose side the invariant ties to the version; without a context, or with a
codeword unwritten, one of its two checks faults. -/
theorem placeWritesTheSymbol : Obligations.PlaceWritesTheSymbol := by
  refine ⟨fun m s hinv hvalid hwritten =>
      ⟨_, execPlace_next.mpr ⟨hvalid, hwritten, rfl⟩, fun x y hx _ => ?bitmap, rfl, rfl, rfl, rfl⟩,
    fun m s hvalid => requireValid_of_not hvalid, fun m s i hvalid hi hnone hbelow => ?unwritten⟩
  case unwritten => exact (requireValid_of_valid hvalid).trans (requireWritten_of_unwritten hi hnone hbelow)
  case bitmap =>
    obtain ⟨hside, -⟩ := Context.consistent_of_version hinv.context (hinv.valid hvalid)
    rw [getLsbD_bitmapWord _ y hx]
    split
    case isTrue hin => exact moduleAt_commitSymbol s _ m (version_le _) hside hin.1 hin.2
    case isFalse hout => exact moduleAt_commitSymbol_outside s _ m hside (by unfold sideOf; omega)

end Sys2Proof.Machine

/-! # Penalties: what the four terms count, and how large they are -/

namespace Sys2Proof.Machine

/-! ### Sums over the lines and counts over the modules of a grid -/

/-- A sum over the lines of a grid is the sum over its rows plus the sum over its columns (R231). -/
theorem sum_map_gridLines (f : List Bool → Nat) (n : Nat) (g : Grid) :
    ((gridLines n g).map f).sum =
      ∑ y ∈ Finset.range n, f ((List.range n).map fun x => g x y) +
      ∑ x ∈ Finset.range n, f ((List.range n).map fun y => g x y) := by
  rw [gridLines, List.map_append, List.sum_append, List.map_map, List.map_map]
  rfl

theorem countP_range_eq_card (m : Nat) (p : Nat → Bool) :
    (List.range m).countP p = ((Finset.range m).filter fun x => p x = true).card := by
  rw [List.countP_eq_length_filter, Finset.card_def, Finset.filter_val, Finset.range_val, Multiset.range, Multiset.filter_coe,
    Multiset.coe_card]
  simp only [Bool.decide_eq_true]

/-- Counting row by row is counting pairs of coordinates. -/
theorem sum_countP_range (m n : Nat) (p : Nat → Nat → Bool) :
    ∑ y ∈ Finset.range n, (List.range m).countP (fun x => p x y) =
      ((Finset.range m ×ˢ Finset.range n).filter fun q => p q.1 q.2 = true).card := by
  simp only [countP_range_eq_card, Finset.card_filter, Finset.sum_product_right]

theorem darkCount_eq_card (n : Nat) (g : Grid) :
    darkCount n g = ((Finset.range n ×ˢ Finset.range n).filter fun p => g p.1 p.2 = true).card :=
  sum_countP_range n n g

/-! ### N1, runs -/

/-- Settles O33: the first maximal run of a line splits off it, and the lines of a grid are its rows and its columns. -/
theorem runPenaltySumsTheMaximalRuns : Obligations.RunPenaltySumsTheMaximalRuns := by
  refine ⟨rfl, fun b k rest hk hrest => ?_, fun n g => sum_map_gridLines lineRuns n g⟩
  have hrun : runPenalty k = if 5 ≤ k then k - 2 else 0 := by
    unfold runPenalty
    split <;> omega
  rw [lineRuns, splitBy_replicate_append b k rest hk hrest, List.map_cons, List.sum_cons, List.length_replicate, hrun, lineRuns]

/-! ### N2, blocks -/

/-- Whether the 2×2 block whose top-left module is (x, y) has one colour (R233). -/
def blockIsEqual (g : Grid) (x y : Nat) : Bool := g x y == g (x + 1) y && g x y == g x (y + 1) && g x y == g (x + 1) (y + 1)

theorem equalBlocks_eq_darkCount (n : Nat) (g : Grid) : equalBlocks n g = darkCount (n - 1) (blockIsEqual g) := rfl

theorem blockIsEqual_iff {g : Grid} {x y : Nat} :
    blockIsEqual g x y = true ↔ g x y = g (x + 1) y ∧ g x y = g x (y + 1) ∧ g x y = g (x + 1) (y + 1) := by
  simp only [blockIsEqual, Bool.and_eq_true, beq_iff_eq, and_assoc]

/-- Settles O34: the blocks are counted row by row. -/
theorem blockPenaltyCountsEveryBlock : Obligations.BlockPenaltyCountsEveryBlock := by
  intro n g
  simp only [penaltyN2, equalBlocks_eq_darkCount, darkCount_eq_card, blockIsEqual_iff]

/-! ### N3, finder-like patterns -/

theorem finderLike_iff {w : List Bool} :
    finderLike w = true ↔
      w = [true, false, true, true, true, false, true, false, false, false, false] ∨
      w = [false, false, false, false, true, false, true, true, true, false, true] := by
  simp only [finderLike, Bool.or_eq_true, beq_iff_eq]

/-- The window of 11 modules from module `i` of a line (R234). -/
theorem take_drop_map_range {n i : Nat} (f : Nat → Bool) (h : i < n - 10) :
    (((List.range n).map f).drop i).take 11 = (List.range 11).map fun k => f (i + k) := by
  apply List.ext_getElem
  · simp only [List.length_take, List.length_drop, List.length_map, List.length_range]
    omega
  · simp

/-- Whether the 11 modules of row `y` from (x, y) on are finder-like (R234). -/
def windowIsFinderLike (g : Grid) (x y : Nat) : Bool := finderLike ((List.range 11).map fun k => g (x + k) y)

theorem lineWindows_row (n : Nat) (g : Grid) (y : Nat) :
    lineWindows ((List.range n).map fun x => g x y) = (List.range (n - 10)).countP fun x => windowIsFinderLike g x y := by
  rw [lineWindows, List.length_map, List.length_range]
  refine List.countP_congr fun x hx => ?_
  rw [take_drop_map_range (fun x => g x y) (List.mem_range.mp hx), windowIsFinderLike]

theorem sum_lineWindows_rows (n : Nat) (g : Grid) :
    ∑ y ∈ Finset.range n, lineWindows ((List.range n).map fun x => g x y) =
      Nat.card { p : Nat × Nat // p.1 + 11 ≤ n ∧ p.2 < n ∧ windowIsFinderLike g p.1 p.2 = true } := by
  simp only [lineWindows_row, sum_countP_range]
  refine (Nat.subtype_card _ fun p => ?_).symm
  simp only [Finset.mem_filter, Finset.mem_product, Finset.mem_range, and_assoc]
  exact and_congr_left' (by omega)

/-- The columns of a grid are the rows of its transpose. -/
theorem sum_lineWindows_columns (n : Nat) (g : Grid) :
    ∑ x ∈ Finset.range n, lineWindows ((List.range n).map fun y => g x y) =
      Nat.card { p : Nat × Nat // p.1 < n ∧ p.2 + 11 ≤ n ∧ windowIsFinderLike (flip g) p.2 p.1 = true } :=
  (sum_lineWindows_rows n (flip g)).trans <|
    Nat.card_congr ((Equiv.prodComm Nat Nat).subtypeEquiv fun _ => and_left_comm)

/-- Settles O35: the windows are counted row by row, and column by column. -/
theorem windowPenaltyCountsFinderPatterns : Obligations.WindowPenaltyCountsFinderPatterns := by
  intro n g like
  rw [penaltyN3, sum_map_gridLines, sum_lineWindows_rows, sum_lineWindows_columns]
  simp only [windowIsFinderLike, finderLike_iff]
  rfl

/-! ### N4, balance -/

theorem cast_absDiff (a b : Nat) : (absDiff a b : Int) = |(a : Int) - b| := by
  rw [Int.abs_eq_natAbs]
  unfold absDiff
  omega

/-- Settles O36: `absDiff` is the absolute value of the difference in the integers. -/
theorem balancePenaltyIsExact : Obligations.BalancePenaltyIsExact := by
  intro n g
  simp only [penaltyN4, darkCount_eq_card, Nat.cast_mul, Nat.cast_ofNat, Int.natCast_ediv, cast_absDiff, pow_two]

theorem absDiff_balance_le {dark area : Nat} (h : dark ≤ area) : absDiff (20 * dark) (10 * area) ≤ 10 * area := by
  unfold absDiff
  omega

theorem penaltyN4_le (n : Nat) (g : Grid) : penaltyN4 n g ≤ 100 := by
  have hdiv : absDiff (20 * darkCount n g) (10 * (n * n)) / (n * n) ≤ 10 :=
    Nat.div_le_of_le_mul ((absDiff_balance_le (darkCount_le n g)).trans_eq (Nat.mul_comm _ _))
  unfold penaltyN4
  omega

/-- N4 reaches its bound where the deviation does: no module is dark, or all are (R235). -/
theorem penaltyN4_eq_hundred_iff {n : Nat} (hn : 1 ≤ n) (g : Grid) :
    penaltyN4 n g = 100 ↔ darkCount n g = 0 ∨ darkCount n g = n * n := by
  have hle := penaltyN4_le n g
  have hdark := darkCount_le n g
  have harea : 0 < n * n := Nat.mul_pos hn hn
  have hdiv := Nat.le_div_iff_mul_le (x := 10) (y := absDiff (20 * darkCount n g) (10 * (n * n))) harea
  unfold penaltyN4 at hle ⊢
  have hten : 10 * (absDiff (20 * darkCount n g) (10 * (n * n)) / (n * n)) = 100 ↔
      10 * (n * n) ≤ absDiff (20 * darkCount n g) (10 * (n * n)) := by omega
  rw [hten]
  unfold absDiff
  omega

theorem darkCount_eq_zero_iff {n : Nat} {g : Grid} : darkCount n g = 0 ↔ ∀ x y, x < n → y < n → g x y = false := by
  simp [darkCount_eq_card, Finset.filter_eq_empty_iff]

theorem darkCount_eq_area_iff {n : Nat} {g : Grid} : darkCount n g = n * n ↔ ∀ x y, x < n → y < n → g x y = true := by
  have harea : n * n = (Finset.range n ×ˢ Finset.range n).card := by simp
  rw [darkCount_eq_card, harea, Finset.card_filter_eq_iff]
  simp

/-! ### The ranges of the terms -/

theorem penaltyN1_le (n : Nat) (g : Grid) : penaltyN1 n g ≤ 2 * n * (n - 2) := by
  have hlines := sum_map_le (gridLines n g) lineRuns (n - 2)
    fun line hline => length_of_mem_gridLines hline ▸ lineRuns_le line
  rwa [length_gridLines] at hlines

theorem penaltyN2_le (n : Nat) (g : Grid) : penaltyN2 n g ≤ 3 * (n - 1) ^ 2 := by
  rw [penaltyN2, equalBlocks_eq_darkCount, pow_two]
  exact Nat.mul_le_mul_left 3 (darkCount_le _ _)

theorem penaltyN3_le (n : Nat) (g : Grid) : penaltyN3 n g ≤ 40 * (2 * n) * (n - 10) := by
  have hlines := sum_map_le (gridLines n g) lineWindows (n - 10)
    fun line hline => length_of_mem_gridLines hline ▸ lineWindows_le line
  rw [length_gridLines] at hlines
  rw [penaltyN3, Nat.mul_assoc]
  exact Nat.mul_le_mul_left 40 hlines

/-- The bounds of R237 on N1 to N3 grow with the side, so they are largest at side 29. -/
theorem side_bounds_le {n : Nat} (h : n ≤ 29) :
    2 * n * (n - 2) ≤ 1566 ∧ 3 * (n - 1) ^ 2 ≤ 2352 ∧ 40 * (2 * n) * (n - 10) ≤ 44080 :=
  ⟨Nat.mul_le_mul (n₂ := 58) (m₂ := 27) (by omega) (by omega),
    Nat.mul_le_mul_left 3 (Nat.pow_le_pow_left (n := n - 1) (m := 28) (by omega) 2),
    Nat.mul_le_mul (n₂ := 2320) (m₂ := 19) (by omega) (by omega)⟩

theorem penaltyTotal_lt {n : Nat} (h : n ≤ 29) (g : Grid) : penaltyTotal (penaltyOf n g) < 48099 := by
  obtain ⟨h1, h2, h3⟩ := side_bounds_le h
  have := penaltyN1_le n g
  have := penaltyN2_le n g
  have := penaltyN3_le n g
  have := penaltyN4_le n g
  simp only [penaltyTotal, penaltyOf]
  omega

theorem toNat_ofNat_of_le_total {n k : Nat} {g : Grid} (h : n ≤ 29) (hk : k ≤ penaltyTotal (penaltyOf n g)) :
    (BitVec.ofNat 16 k).toNat = k := by
  have := penaltyTotal_lt h g
  rw [BitVec.toNat_ofNat]
  omega

/-- A score holds the penalty it is made from exactly (R237). -/
def Score.holds (score : Score) (n : Nat) (g : Grid) : Prop :=
  score.n1.toNat = penaltyN1 n g ∧ score.n2.toNat = penaltyN2 n g ∧ score.n3.toNat = penaltyN3 n g ∧
    score.n4.toNat = penaltyN4 n g ∧ score.total.toNat = penaltyTotal (penaltyOf n g)

theorem scoreOf_holds {n : Nat} (h : n ≤ 29) (g : Grid) : (scoreOf (penaltyOf n g)).holds n g := by
  refine ⟨?_, ?_, ?_, ?_, ?_⟩ <;>
  · refine toNat_ofNat_of_le_total (g := g) h ?_
    simp only [penaltyTotal, penaltyOf]
    omega

/-- Settles O37: each term is bounded line by line or module by module, and the bounds fit 16 bits. -/
theorem penaltyTermsStayInRange : Obligations.PenaltyTermsStayInRange := by
  intro n g hn hn29
  obtain ⟨h1, h2, h3⟩ := side_bounds_le hn29
  refine ⟨penaltyN1_le n g, h1, penaltyN2_le n g, h2, penaltyN3_le n g, h3, penaltyN4_le n g, penaltyTotal_lt hn29 g,
    scoreOf_holds hn29 g, ?_⟩
  rw [penaltyN4_eq_hundred_iff hn, darkCount_eq_zero_iff, darkCount_eq_area_iff, Bool.exists_bool]

end Sys2Proof.Machine

/-! # Mask selection: SCORE, SELECT and ENCODE -/

namespace Sys2Proof.Machine

/-! ### SCORE -/

theorem sideOf_version_le (c : Context) : sideOf c.version.toNat ≤ 29 := by
  have := version_le c
  unfold sideOf
  omega

/-- The penalty of a complete symbol may be read from its bitmap words (R231, R271). -/
theorem penaltyOf_bitmapWord {n : Nat} (hn : n ≤ 32) (s : State) :
    penaltyOf n s.moduleAt = penaltyOf n fun x y => (s.bitmapWord y).getLsbD (31 - x) :=
  penaltyOf_congr fun _ y hx _ => (getLsbD_bitmapWord s y (Nat.lt_of_lt_of_le hx hn)).symm

/-- Settles O38: SCORE reads the symbol's modules only, and its penalty fits the registers. -/
theorem scoreWritesThePenaltyOfTheBitmap : Obligations.ScoreWritesThePenaltyOfTheBitmap := by
  refine ⟨fun s hinv hdone => ⟨_, execScore_next.mpr ⟨hdone, rfl⟩, rfl, ?_⟩, fun s hdone => requireDone_of_not hdone⟩
  intro n g
  have hside : n ≤ 29 := (hinv.bitmapWord_eq_placeGrid hdone).2.1.trans_le (sideOf_version_le s.ctx)
  rw [penaltyOf_bitmapWord (by omega)]
  exact scoreOf_holds hside g

/-! ### The candidates of SELECT -/

theorem candidatePenalty_eq (v : Nat) (stream : List Byte) (m : BitVec 3) :
    candidatePenalty v stream m = penaltyOf (sideOf v) (placeGrid v stream m) := rfl

/-- PEN[m] is the total of candidate `m`, exactly (R50, R245). -/
theorem pen_commitWinner (s : State) {v : Nat} (hv : sideOf v ≤ 29) (stream : List Byte) (m : Fin 8) :
    (s.commitWinner v stream).pen[m].toNat = penaltyTotal (candidatePenalty v stream (BitVec.ofNat 3 m.val)) := by
  have hpen := getElem?_pen_commitWinner s v stream m.val m.isLt
  rw [Vector.getElem?_eq_getElem m.isLt, Option.some.injEq] at hpen
  exact (congrArg BitVec.toNat hpen).trans (toNat_ofNat_of_le_total hv (Nat.le_refl _))

/-- Settles O39: the symbol that PLACE commits is the candidate's grid. -/
theorem scoreAfterPlaceIsSelectsPenalty : Obligations.ScoreAfterPlaceIsSelectsPenalty := by
  intro s t u r m hinv hplace hscore hselect
  obtain ⟨hvalid, -, rfl⟩ := execPlace_next.mp hplace
  obtain ⟨-, rfl⟩ := execScore_next.mp hscore
  obtain ⟨-, -, rfl⟩ := selectFor_next.mp hselect
  obtain ⟨hside, -⟩ := Context.consistent_of_version hinv.context (hinv.valid hvalid)
  rw [getElem?_pen_commitWinner _ _ _ _ m.isLt, BitVec.ofNat_toNat, BitVec.setWidth_eq, commitSymbol_ctx, hside,
    penaltyOf_congr fun x y => moduleAt_commitSymbol s _ m (version_le _) hside]
  refine ⟨rfl, ?_⟩
  rintro rfl
  rfl

/-- Settles O40: the winner is a first minimum of the totals, which PEN holds exactly. -/
theorem selectKeepsTheFirstMinimum : Obligations.SelectKeepsTheFirstMinimum := by
  intro s t _ hselect m
  obtain ⟨-, -, rfl⟩ := selectFor_next.mp hselect
  have hpen := pen_commitWinner s (sideOf_version_le s.ctx) (s.codewords s.ctx.lpTotal.toNat)
  have hwinner := hpen ⟨(winningMask s.ctx.version.toNat (s.codewords s.ctx.lpTotal.toNat)).toNat, BitVec.isLt _⟩
  simp only [BitVec.ofNat_toNat, BitVec.setWidth_eq] at hwinner
  have := winningMask_spec s.ctx.version.toNat (s.codewords s.ctx.lpTotal.toNat) m.val m.isLt
  rw [← hpen m, ← hwinner] at this
  exact this

/-! ### SELECT -/

/-- SELECT leaves BM as PLACE of the winner does, so both read the same (R245). -/
theorem bitmapWord_commitWinner (s : State) (v : Nat) (stream : List Byte) (y : Nat) :
    (s.commitWinner v stream).bitmapWord y = (s.commitSymbol v stream (winningMask v stream)).bitmapWord y := rfl

/-- After a symbol of the context's size is committed, BM as the host reads it: the grid's modules, and a free value elsewhere. -/
theorem getLsbD_bitmapWord_commitSymbol (s : State) {v x : Nat} (y : Nat) (stream : List Byte) (m : BitVec 3) (hv : v ≤ 3)
    (hside : s.ctx.size.toNat = sideOf v) (hx : x < 32) :
    ((s.commitSymbol v stream m).bitmapWord y).getLsbD (31 - x) =
      if x < sideOf v ∧ y < sideOf v then placeGrid v stream m x y else (Config.freeRow s.draws y).getLsbD (31 - x) := by
  rw [getLsbD_bitmapWord _ y hx]
  split
  case isTrue hin => exact moduleAt_commitSymbol s stream m hv hside hin.1 hin.2
  case isFalse hout => exact moduleAt_commitSymbol_outside s stream m hside (by omega)

/-- Settles O41: SELECT commits the winner's symbol and score; without a context, or with a codeword unwritten, one of its two checks
faults. -/
theorem selectCommitsTheWinner : Obligations.SelectCommitsTheWinner := by
  refine ⟨fun s hinv hvalid hwritten => ⟨_, selectFor_next.mpr ⟨hvalid, hwritten, rfl⟩, ?_⟩,
    fun s hvalid => requireValid_of_not hvalid, fun s i hvalid hi hnone hbelow => ?unwritten⟩
  case unwritten => exact (requireValid_of_valid hvalid).trans (requireWritten_of_unwritten hi hnone hbelow)
  obtain ⟨hside, -⟩ := Context.consistent_of_version hinv.context (hinv.valid hvalid)
  have hmax := sideOf_version_le s.ctx
  intro v n grid total
  have hgrid (m : BitVec 3) : grid m.toNat = placeGrid v (s.codewords s.ctx.lpTotal.toNat) m := by
    simp only [grid, BitVec.ofNat_toNat, BitVec.setWidth_eq]
  refine ⟨pen_commitWinner s hmax _, fun m hm => ?minimum, fun x y hx _ => ?bitmap, rfl, ?score⟩
  case minimum =>
    simp only [total, hgrid, commitWinner_maskSel]
    exact winningMask_spec v _ m hm
  case bitmap =>
    rw [bitmapWord_commitWinner, commitWinner_maskSel, hgrid]
    exact getLsbD_bitmapWord_commitSymbol s y _ _ (version_le _) hside hx
  case score =>
    simp only [total, hgrid, commitWinner_maskSel]
    obtain ⟨hn1, hn2, hn3, hn4, htotal⟩ :=
      scoreOf_holds hmax (placeGrid v _ (winningMask v (s.codewords s.ctx.lpTotal.toNat)))
    exact ⟨hn1, hn2, hn3, hn4, htotal, rfl, rfl⟩

/-- Settles O42: SELECT and PLACE of the winner read the same stream and write the same rows. -/
theorem selectsSymbolIsPlacesSymbol : Obligations.SelectsSymbolIsPlacesSymbol := by
  intro s t hselect
  obtain ⟨hvalid, hwritten, rfl⟩ := selectFor_next.mp hselect
  exact ⟨_, execPlace_next.mpr ⟨hvalid, hwritten, rfl⟩, rfl, rfl, fun x y _ _ => rfl⟩

/-! ### ENCODE -/

/-- Settles O43: the next state of each part does not depend on the command it runs for. -/
theorem encodeIsTheThreeCommands : Obligations.EncodeIsTheThreeCommands := by
  intro s t
  have hassemble {a : State} : exec .assemble s = .next a ↔ assembleFor (encode .encode) s = .next a :=
    assembleFor_next.trans assembleFor_next.symm
  have hcode {a b : State} : exec .rsEncode a = .next b ↔ rsEncodeFor (encode .encode) a = .next b :=
    rsEncodeFor_next.trans rsEncodeFor_next.symm
  have hselect {b : State} : exec .select b = .next t ↔ selectFor (encode .encode) b = .next t :=
    selectFor_next.trans selectFor_next.symm
  simp only [hassemble, hcode, hselect]
  exact execEncode_next

theorem writeFrom_append {α : Type} {n : Nat} (v : Vector α n) (start : Nat) (bs cs : List α) :
    writeFrom (writeFrom v start bs) (start + bs.length) cs = writeFrom v start (bs ++ cs) := by
  induction bs generalizing v start with
  | nil => rfl
  | cons b bs ih =>
    rw [List.length_cons, Nat.add_comm bs.length, ← Nat.add_assoc]
    exact ih _ _

/-- Two writes to adjoining places are one write. -/
theorem writeCodewords_append (s : State) (bs cs : List Byte) :
    (s.writeCodewords 0 bs).writeCodewords bs.length cs = s.writeCodewords 0 (bs ++ cs) := by
  have happend := writeFrom_append s.cw 0 (bs.map some) (cs.map some)
  rw [Nat.zero_add, List.length_map, ← List.map_append] at happend
  simp only [State.writeCodewords, happend]

theorem codeword_writeCodewords_zero (s : State) {bs : List Byte} (h : bs.length ≤ 70) (i : Nat) :
    (s.writeCodewords 0 bs).codeword i = if i < bs.length then bs[i]? else s.codeword i := by
  rw [codeword_writeCodewords, Nat.sub_zero]
  exact if_congr (by omega) rfl rfl

theorem writtenBelow_writeCodewords (s : State) {bs : List Byte} (h : bs.length ≤ 70) :
    (s.writeCodewords 0 bs).writtenBelow bs.length := by
  intro i hi
  rw [codeword_writeCodewords_zero s h, if_pos hi, List.getElem?_eq_getElem hi, Option.isSome_some]

/-- What was written is what a command then reads. -/
theorem codewords_writeCodewords (s : State) {bs : List Byte} (h : bs.length ≤ 70) :
    (s.writeCodewords 0 bs).codewords bs.length = bs := by
  refine List.ext_getElem? fun i => ?_
  by_cases hi : i < bs.length
  · rw [getElem?_codewords hi, codeword_writeCodewords_zero s h, if_pos hi, List.getElem?_eq_getElem hi, Option.getD_some]
  · rw [List.getElem?_eq_none (by rw [length_codewords]; omega), List.getElem?_eq_none (by omega)]

/-- The codeword stream of a context and its input: the data codewords, then their correction codewords (R125, R155). -/
def encodedStream (c : Context) (input : List Byte) : List Byte :=
  dataCodewords c.lpData.toNat input ++ rsRemainder (dataCodewords c.lpData.toNat input) c.lpEcc.toNat

/-- What ENCODE leaves for an input. -/
def State.encoded (s : State) (input : List Byte) : State :=
  (s.writeCodewords 0 (encodedStream s.ctx input)).commitWinner s.ctx.version.toNat (encodedStream s.ctx input)

section Encode

variable {s : State} {input : List Byte} (hinv : Inv s) (hvalid : s.status.valid = true) (hadm : s.admits input)
include hinv hvalid hadm

theorem length_dataCodewords_of_admits : (dataCodewords s.ctx.lpData.toNat input).length = s.ctx.lpData.toNat :=
  length_dataCodewords (hadm.1 ▸ hinv.inlen_add_two_le hvalid)

theorem length_encodedStream : (encodedStream s.ctx input).length = s.ctx.lpTotal.toNat := by
  have hver := hinv.valid hvalid
  obtain ⟨-, -, htotal, hdata, hecc, -⟩ := Context.consistent_of_version hinv.context hver
  have hparts : ∀ v ∈ [1, 2, 3], (layoutOf v).data + (layoutOf v).ecc = (layoutOf v).total := by decide
  rw [encodedStream, List.length_append, length_rsRemainder, length_dataCodewords_of_admits hinv hvalid hadm, hdata, hecc, htotal]
  exact hparts _ (mem_versions hver (version_le _))

theorem length_encodedStream_le : (encodedStream s.ctx input).length ≤ 70 := by
  rw [encodedStream, List.length_append, length_rsRemainder, length_dataCodewords_of_admits hinv hvalid hadm]
  exact hinv.lpData_add_lpEcc_le hvalid

/-- The coder finds the assembler's codewords and writes theirs after them (R155). -/
theorem exec_rsEncode_assembled :
    exec .rsEncode (s.writeCodewords 0 (dataCodewords s.ctx.lpData.toNat input)) =
      .next (s.writeCodewords 0 (encodedStream s.ctx input)) := by
  have hlen := length_dataCodewords_of_admits hinv hvalid hadm
  have hfit : (dataCodewords s.ctx.lpData.toNat input).length ≤ 70 :=
    hlen.trans_le (Nat.le_of_add_right_le (hinv.lpData_add_lpEcc_le hvalid))
  have hwritten := writtenBelow_writeCodewords s hfit
  have hread := codewords_writeCodewords s hfit
  have happend := writeCodewords_append s (dataCodewords s.ctx.lpData.toNat input)
    (rsRemainder (dataCodewords s.ctx.lpData.toNat input) s.ctx.lpEcc.toNat)
  rw [hlen] at hwritten hread happend
  refine rsEncodeFor_next.mpr ⟨hvalid, hwritten, ?_⟩
  rw [writeCodewords_ctx, hread, happend, encodedStream]

/-- The selector finds the whole stream written (R245). -/
theorem exec_select_coded : exec .select (s.writeCodewords 0 (encodedStream s.ctx input)) = .next (s.encoded input) := by
  have hfit := length_encodedStream_le hinv hvalid hadm
  have hwritten := writtenBelow_writeCodewords s hfit
  have hread := codewords_writeCodewords s hfit
  rw [length_encodedStream hinv hvalid hadm] at hwritten hread
  refine selectFor_next.mpr ⟨hvalid, hwritten, ?_⟩
  rw [writeCodewords_ctx, hread, State.encoded]

theorem exec_encode_of_admits : exec .encode s = .next (s.encoded input) :=
  (encodeIsTheThreeCommands s _).mpr ⟨_, _, exec_assemble_of_admits hvalid hadm, exec_rsEncode_assembled hinv hvalid hadm,
    exec_select_coded hinv hvalid hadm⟩

/-- ENCODE leaves the stream in `CW[0..LP_TOTAL-1]` and no other codeword changed (R250). -/
theorem codeword_encoded (i : Nat) :
    (s.encoded input).codeword i = if i < s.ctx.lpTotal.toNat then (encodedStream s.ctx input)[i]? else s.codeword i := by
  rw [← length_encodedStream hinv hvalid hadm]
  exact codeword_writeCodewords_zero s (length_encodedStream_le hinv hvalid hadm) i

theorem writtenBelow_encoded : (s.encoded input).writtenBelow s.ctx.lpTotal.toNat := by
  rw [← length_encodedStream hinv hvalid hadm]
  exact writtenBelow_writeCodewords s (length_encodedStream_le hinv hvalid hadm)

end Encode

theorem valid_of_exec_encode {s t : State} (h : exec .encode s = .next t) : s.status.valid = true :=
  (requireValid_eq_next.mp h).1

/-- PEN is overwritten whole (R50, R245). -/
theorem pen_commitWinner_eq (s s' : State) (v : Nat) (stream : List Byte) :
    (s.commitWinner v stream).pen = (s'.commitWinner v stream).pen := by
  refine Vector.ext fun m hm => Option.some.inj ?_
  rw [← Vector.getElem?_eq_getElem hm, ← Vector.getElem?_eq_getElem hm, getElem?_pen_commitWinner _ _ _ m hm,
    getElem?_pen_commitWinner _ _ _ m hm]

theorem getLsbD_bitmapWord_encoded (s : State) {x y : Nat} (input : List Byte)
    (hside : s.ctx.size.toNat = sideOf s.ctx.version.toNat) (hx : x < s.ctx.size.toNat) (hy : y < s.ctx.size.toNat) :
    ((s.encoded input).bitmapWord y).getLsbD (31 - x) =
      placeGrid s.ctx.version.toNat (encodedStream s.ctx input)
        (winningMask s.ctx.version.toNat (encodedStream s.ctx input)) x y := by
  have hx32 : x < 32 := hx.trans s.ctx.size.isLt
  exact (getLsbD_bitmapWord_commitSymbol _ y _ _ (version_le _) hside hx32).trans (if_pos ⟨hside ▸ hx, hside ▸ hy⟩)

/-- Settles O44: the stream is a function of the context and the input, and what ENCODE leaves is a function of the stream. -/
theorem encodeDependsOnContextAndInputOnly : Obligations.EncodeDependsOnContextAndInputOnly := by
  intro s s' t t' b hinv hinv' hctx hadm hadm' hexec hexec'
  have hvalid := valid_of_exec_encode hexec
  have hvalid' := valid_of_exec_encode hexec'
  obtain rfl := next_eq_next.mp ((exec_encode_of_admits hinv hvalid hadm).symm.trans hexec)
  obtain rfl := next_eq_next.mp ((exec_encode_of_admits hinv' hvalid' hadm').symm.trans hexec')
  obtain ⟨hside, -⟩ := Context.consistent_of_version hinv.context (hinv.valid hvalid)
  refine ⟨fun i hi => ?codewords, ?pen, ?maskSel, ?fmt, ?score, fun x y hx hy => ?bitmap⟩
  case codewords =>
    rw [codeword_encoded hinv hvalid hadm, codeword_encoded hinv' hvalid' hadm', ← hctx, if_pos hi, if_pos hi]
  case bitmap =>
    rw [getLsbD_bitmapWord_encoded s b hside hx hy, hctx, getLsbD_bitmapWord_encoded s' b (hctx ▸ hside) (hctx ▸ hx) (hctx ▸ hy)]
  case pen =>
    rw [State.encoded, State.encoded, ← hctx]
    exact pen_commitWinner_eq _ _ _ _
  all_goals simp only [State.encoded, commitWinner_maskSel, commitWinner_fmt, commitWinner_score, hctx]

/-- With a valid context ENCODE is stuck at the address its read of the input stops at (R307). -/
theorem exec_encode_refused {s : State} {e : Nat} (hvalid : s.status.valid = true)
    (h : s.hostMem.readBytes s.ctx.addr.toNat s.ctx.inlen.toNat = .error e) :
    exec .encode s = .refused (.hostReadRefused e) := by
  simp only [exec, execEncode, requireValid_of_valid hvalid, assembleFor_refused hvalid h, andThen_refused]

/-- An input that is read is admitted; an empty range does not wrap, since CTX_ADDR is below `2^ADDR_W`. -/
theorem admits_of_readBytes {s : State} {input : List Byte}
    (h : s.hostMem.readBytes s.ctx.addr.toNat s.ctx.inlen.toNat = .ok input) : s.admits input := by
  obtain ⟨hlen, hwrap, hread⟩ := readBytes_eq_ok.mp h
  have haddr := s.ctx.addr.isLt
  simp only [Config.addrW] at hwrap
  exact ⟨hlen, by simp only [Config.addrW]; omega, hread⟩

/-- Settles O45: the three commands run in turn; ENCODE faults on its first check without a context, and is stuck where the read of an
input that is not admitted stops. -/
theorem encodeCompletesOnAValidContext : Obligations.EncodeCompletesOnAValidContext := by
  refine ⟨fun s input hinv hvalid hadm =>
      ⟨_, _, _, exec_assemble_of_admits hvalid hadm, exec_rsEncode_assembled hinv hvalid hadm, exec_select_coded hinv hvalid hadm,
        exec_encode_of_admits hinv hvalid hadm, rfl, writtenBelow_encoded hinv hvalid hadm, fun i hi => ?frame, rfl⟩,
    fun s hvalid => requireValid_of_not hvalid, fun s hvalid hnone => ?stuck⟩
  case frame => exact (codeword_encoded hinv hvalid hadm i).trans (if_neg (Nat.not_lt_of_le hi))
  case stuck =>
    cases hread : s.hostMem.readBytes s.ctx.addr.toNat s.ctx.inlen.toNat with
    | ok input => exact absurd ⟨input, admits_of_readBytes hread⟩ hnone
    | error e => exact ⟨e, exec_encode_refused hvalid hread⟩

end Sys2Proof.Machine

/-! # Emit and control: GET_MODULE, NOP and ILLEGAL, and the host's register writes -/

namespace Sys2Proof.Machine

/-! ### GET_MODULE -/

theorem Context.contains_iff {c : Context} {x y : BitVec 5} :
    c.contains x y = true ↔ x.toNat < c.size.toNat ∧ y.toNat < c.size.toNat := by
  simp [Context.contains]

/-- With a symbol in BM a coordinate outside it faults (R305). -/
theorem execGetModule_outOfRange {x y : BitVec 5} {s : State} (hdone : s.status.done = true)
    (h : s.ctx.contains x y = false) :
    execGetModule x y s = .fault (.moduleOutOfRange x.toNat y.toNat s.ctx.size.toNat) := by
  rw [execGetModule, requireDone_of_done hdone, h, if_neg Bool.false_ne_true]

/-- Settles O46: DONE is the first check, the coordinates the second, and the module returned is the bit of the row the host reads. -/
theorem getModuleReadsOneModule : Obligations.GetModuleReadsOneModule := by
  intro x y s
  refine ⟨fun hdone hx hy => ?returned, fun hdone => requireDone_of_not hdone, fun hdone hout => ?outOfRange⟩
  case returned =>
    rw [getLsbD_bitmapWord s y.toNat x.isLt]
    exact execGetModule_next.mpr ⟨hdone, Context.contains_iff.mpr ⟨hx, hy⟩, rfl⟩
  case outOfRange =>
    refine execGetModule_outOfRange hdone (Bool.eq_false_iff.mpr fun hin => ?_)
    obtain ⟨hx, hy⟩ := Context.contains_iff.mp hin
    omega

/-! ### NOP and ILLEGAL -/

/-- Settles O47: the two meanings are these states by definition. -/
theorem nopAndIllegalWords : Obligations.NopAndIllegalWords := fun _ => ⟨rfl, fun _ => rfl⟩

/-! ### Register writes -/

/-- An aligned write of the register space is the write of the register that the map has there (R71, R306). -/
theorem step_regWrite {s : State} {off : Nat} {v : Word} {rest : List HostEvent} (hp : s.pending = .regWrite off 4 v :: rest)
    (h4 : off % 4 = 0) (hoff : off ≤ 0x3FC) : step s = writeReg (regAt off) v { s with pending := rest } := by
  have hacc : regAccessible off 4 = true := by simp [regAccessible, h4, hoff]
  rw [step_of_pending hp]
  simp only [runEvent, hostWrite, hacc, if_true]

theorem Status.hostWrite_eq (f : Status) (v : Word) : f.hostWrite v = { f with ill := if v.getLsbD 4 then false else f.ill } := by
  rw [Status.hostWrite]
  cases v.getLsbD 4 <;> simp

/-- Storing one byte writes its own entry and no other (R275). -/
theorem codeword_writeCodewords_singleton (s : State) {i : Nat} (hi : i < 70) (b : Byte) (j : Nat) :
    (s.writeCodewords i [b]).codeword j = if j = i then some b else s.codeword j := by
  rw [codeword_writeCodewords]
  by_cases hj : j = i
  · subst hj
    simp [hi]
  · have hout : ¬(i ≤ j ∧ j < i + [b].length ∧ j < 70) := by simp only [List.length_singleton]; omega
    rw [if_neg hout, if_neg hj]

/-- An aligned offset that is neither CMD, STATUS, DATA_ADDR nor a CWW entry has a register that ignores writes (R277). -/
theorem writeReg_regAt_ignored {off : Nat} (v : Word) (s : State) (h4 : off % 4 = 0) (hcmd : off ≠ 0x000)
    (hstatus : off ≠ 0x004) (haddr : off ≠ 0x008) (hcww : ∀ i, i < 70 → off ≠ 0x200 + 4 * i) :
    writeReg (regAt off) v s = .next s := by
  have hnot : ¬(0x200 ≤ off ∧ (off - 0x200) / 4 < 70) := fun ⟨hlow, hi⟩ => hcww _ hi (by omega)
  unfold regAt
  split
  case h_1 => exact absurd rfl hcmd
  case h_2 => exact absurd rfl hstatus
  case h_3 => exact absurd rfl haddr
  case h_20 => rw [dif_neg hnot]; split_ifs <;> rfl
  all_goals rfl

/-- Settles O48: each clause is the write of the register that the map has at that offset. -/
theorem hostWritesChangeOnlyTheirRegister : Obligations.HostWritesChangeOnlyTheirRegister := by
  intro s off v rest hp
  refine ⟨?dataAddr, ?status, ?cww, fun h4 hoff hcmd hstatus haddr hcww => ?ignored⟩
  case dataAddr =>
    rintro rfl
    exact step_regWrite hp (by decide) (by decide)
  case status =>
    rintro rfl
    rw [← Status.hostWrite_eq]
    exact step_regWrite hp (by decide) (by decide)
  case cww =>
    rintro i hi rfl
    refine ⟨_, (step_regWrite hp (by omega) (by omega)).trans (by rw [regAt_cww ⟨i, hi⟩]; rfl), rfl, ?_, fun j hj => ?_⟩
    · exact (codeword_writeCodewords_singleton _ hi _ i).trans (if_pos rfl)
    · exact (codeword_writeCodewords_singleton _ hi _ j).trans (if_neg hj)
  case ignored =>
    rw [step_regWrite hp h4 hoff]
    exact writeReg_regAt_ignored v _ h4 hcmd hstatus haddr hcww

end Sys2Proof.Machine

/-! # Exceptions: the unwritten codeword, and the narrow or misaligned register access -/

namespace Sys2Proof.Machine

/-! ### Unwritten codewords -/

/-- Settles O17: the fault clauses of SELECT (R245) and of PLACE (R205), whose checks are the same. -/
theorem unwrittenCodewordFaultsWithTheLeastIndex : Obligations.UnwrittenCodewordFaultsWithTheLeastIndex := by
  obtain ⟨-, -, hselect⟩ := selectCommitsTheWinner
  obtain ⟨-, -, hplace⟩ := placeWritesTheSymbol
  exact fun s i hvalid hi hnone hbelow =>
    ⟨hselect s i hvalid hi hnone hbelow, fun m => hplace m s i hvalid hi hnone hbelow⟩

/-! ### Register accesses that fault -/

/-- An access the register space admits is one aligned word (R71). -/
theorem aligned_word_of_regAccessible {off size : Nat} (h : regAccessible off size = true) : size = 4 ∧ off % 4 = 0 := by
  simp only [regAccessible, Bool.and_eq_true, beq_iff_eq] at h
  exact h.1

theorem hostWrite_of_not_accessible {off size : Nat} (v : Word) (s : State) (h : regAccessible off size = false) :
    hostWrite off size v s = .fault (.registerAccessFault off size) := by
  rw [hostWrite, h, if_neg Bool.false_ne_true]

theorem hostRead_of_not_accessible {off size : Nat} (s : State) (h : regAccessible off size = false) :
    hostRead off size s = .fault (.registerAccessFault off size) := by
  rw [hostRead, h, if_neg Bool.false_ne_true]

/-- Settles O51: an access that is no aligned word is not admitted, which is the first check of a write and of a read (R309). -/
theorem misalignedOrNarrowAccessFaults : Obligations.MisalignedOrNarrowAccessFaults := by
  intro s off size v rest hbad
  have hacc : regAccessible off size = false := Bool.eq_false_iff.mpr fun h => by
    obtain ⟨hsize, halign⟩ := aligned_word_of_regAccessible h
    exact hbad.elim (· hsize) (· halign)
  exact ⟨fun hp => (step_of_pending hp).trans (hostWrite_of_not_accessible v _ hacc),
    fun hp => (step_of_pending hp).trans (hostRead_of_not_accessible _ hacc)⟩

end Sys2Proof.Machine

/-! # Reset and hazards: reset, the commands with no context or no symbol, TIER, host stores and the waiting step -/

namespace Sys2Proof.Machine

/-! ### Waiting, reset and host stores -/

/-- Settles O8: a step is the first pending event, and there is none. -/
theorem waitingStepKeepsTheState : Obligations.WaitingStepKeepsTheState := by
  intro s hp
  simp only [step, runPending, hp]

/-- Reset leaves every codeword unwritten (R63, R330). -/
theorem codeword_resetBlock (s : State) (i : Nat) : s.resetBlock.codeword i = none := by
  simp only [State.codeword, resetBlock_cw, reset_cw, Vector.getElem?_replicate]
  split <;> rfl

/-- Settles O11: the reset event is `resetBlock`, and with DONE = 0 no bit of BM has a defined value. -/
theorem resetEventRestoresTheTableValues : Obligations.ResetEventRestoresTheTableValues := by
  intro s rest hp
  exact ⟨_, step_of_pending hp, rfl, rfl, rfl, rfl, rfl, rfl, rfl, rfl, fun y => bitmapWord_of_not_done rfl y.val,
    fun i => codeword_resetBlock _ i.val, rfl, rfl, rfl⟩

/-- Settles O59: the store's event is one write of host memory, at its own address. -/
theorem hostStoreChangesOneByte : Obligations.HostStoreChangesOneByte := by
  intro s a b rest hp
  exact ⟨_, step_of_pending hp, rfl, read_write_same s.hostMem a.toNat b, fun _ hne => read_write_other s.hostMem b hne⟩

/-! ### Commands with no context or no symbol -/

/-- EVALUATE completes from every state (R115, R116). -/
theorem exists_exec_evaluate_next (ver : BitVec 4) (len : BitVec 16) (s : State) :
    ∃ t, exec (.evaluate ver len) s = .next t := by
  by_cases hfits : fits ver.toNat len.toNat = true
  · exact ⟨_, exec_evaluate_of_fits hfits⟩
  · exact ⟨_, exec_evaluate_of_not_fits hfits⟩

/-- Settles O12: the first check of each command that has one is of VALID or of DONE, and it faults with the command's own word. -/
theorem commandsWithoutContextOrSymbol : Obligations.CommandsWithoutContextOrSymbol := by
  refine ⟨rfl, rfl, fun s i hvalid hdone => ?_⟩
  cases i with
  | nop | formatWord | illegal => exact ⟨_, rfl⟩
  | evaluate ver len => exact exists_exec_evaluate_next ver len s
  | encode | assemble | rsEncode | place | select => exact requireValid_of_not hvalid
  | getModule | score => exact requireDone_of_not hdone

/-! ### TIER -/

/-- The outcome of `k` does not depend on CONFIG, which it passes on (R347). -/
def IgnoresConfig (k : State → Result) : Prop :=
  ∀ (s : State) (c : BitVec 2), k { s with config := c } = mapNext (fun t => { t with config := c }) (k s)

section IgnoresConfig

variable {k k' : State → Result} (hk : IgnoresConfig k)
include hk

theorem IgnoresConfig.requireValid (word : Word) : IgnoresConfig fun s => requireValid word s (k s) := by
  intro s c
  simp only [Machine.requireValid, hk s c]
  cases s.status.valid <;> rfl

theorem IgnoresConfig.requireDone (word : Word) : IgnoresConfig fun s => requireDone word s (k s) := by
  intro s c
  simp only [Machine.requireDone, hk s c]
  cases s.status.done <;> rfl

/-- The codewords a command reads are as many as its context says. -/
theorem IgnoresConfig.requireWritten (word : Word) (n : Context → Nat) :
    IgnoresConfig fun s => requireWritten word (n s.ctx) s (k s) := by
  intro s c
  have hfirst : State.firstUnwritten { s with config := c } (n s.ctx) = s.firstUnwritten (n s.ctx) := rfl
  simp only [Machine.requireWritten, hfirst]
  cases s.firstUnwritten (n s.ctx) with
  | some i => rfl
  | none => exact hk s c

theorem IgnoresConfig.andThen (hk' : IgnoresConfig k') : IgnoresConfig fun s => andThen (k s) k' := by
  intro s c
  simp only [hk s c]
  cases k s with
  | next a => exact hk' a c
  | fault | refused => rfl

end IgnoresConfig

theorem ignoresConfig_execEvaluate (ver : BitVec 4) (len : BitVec 16) : IgnoresConfig (execEvaluate ver len) := by
  intro s c
  unfold execEvaluate
  split <;> rfl

theorem ignoresConfig_execGetModule (x y : BitVec 5) : IgnoresConfig (execGetModule x y) := by
  refine IgnoresConfig.requireDone (fun s c => ?_) _
  dsimp only
  split <;> rfl

theorem ignoresConfig_assembleFor (word : Word) : IgnoresConfig (assembleFor word) := by
  refine IgnoresConfig.requireValid (fun s c => ?_) _
  dsimp only
  split <;> rfl

theorem ignoresConfig_rsEncodeFor (word : Word) : IgnoresConfig (rsEncodeFor word) :=
  IgnoresConfig.requireValid (IgnoresConfig.requireWritten (fun _ _ => rfl) word (·.lpData.toNat)) word

theorem ignoresConfig_execPlace (m : BitVec 3) : IgnoresConfig (execPlace m) :=
  IgnoresConfig.requireValid (IgnoresConfig.requireWritten (fun _ _ => rfl) _ (·.lpTotal.toNat)) _

theorem ignoresConfig_selectFor (word : Word) : IgnoresConfig (selectFor word) :=
  IgnoresConfig.requireValid (IgnoresConfig.requireWritten (fun _ _ => rfl) word (·.lpTotal.toNat)) word

theorem ignoresConfig_execScore : IgnoresConfig execScore :=
  IgnoresConfig.requireDone (fun _ _ => rfl) _

/-- ENCODE ignores CONFIG because its three parts do (R250). -/
theorem ignoresConfig_execEncode : IgnoresConfig execEncode :=
  IgnoresConfig.requireValid
    ((ignoresConfig_assembleFor _).andThen ((ignoresConfig_rsEncodeFor _).andThen (ignoresConfig_selectFor _))) _

/-- Settles O56: no check and no written value of a command reads CONFIG. -/
theorem tierChangesNothingButConfig : Obligations.TierChangesNothingButConfig := by
  intro i
  cases i with
  | nop | formatWord | illegal => exact fun _ _ => rfl
  | evaluate ver len => exact ignoresConfig_execEvaluate ver len
  | encode => exact ignoresConfig_execEncode
  | getModule x y => exact ignoresConfig_execGetModule x y
  | assemble => exact ignoresConfig_assembleFor _
  | rsEncode => exact ignoresConfig_rsEncodeFor _
  | place m => exact ignoresConfig_execPlace m
  | score => exact ignoresConfig_execScore
  | select => exact ignoresConfig_selectFor _

end Sys2Proof.Machine
